-- ==== Sys2Proof/Word.lean ====
section
/-! DEFINITION. The bit-level types of the TEASharp CORE: words, characters, strings, register indices.
Rules R10, R12, R50, R73 of spec/. -/

namespace Sys2Proof

/-- `u32`, the width of every host-visible register and of all round arithmetic (T-R5 `WORD_BITS`, R10). -/
abbrev Word := BitVec 32

/-- A character is an 8-bit code, 0 to 255 (R12, R73). -/
abbrev Ch := BitVec 8

/-- A string is a finite sequence of characters, the first one leftmost (R12). -/
abbrev Str := List Ch

/-- An index of the host register space `REG`, 0 to 255 (R50). -/
abbrev RegIndex := BitVec 8

end Sys2Proof
end

