-- ==== Sys2Proof/Config.lean ====
section
/-! DEFINITION. What is fixed for one machine (rules R5, R6, R31, R76, R126), and the free values: the
register contents after reset and the words read while `BUSY`, which the spec leaves unspecified. -/

namespace Sys2Proof.Config

/-- `DELTA`, hardwired, no register (R31, R126). -/
def DELTA : Word := 0x9e3779b9

/-- `DSUM0`, the sum that decrypt starts from: `DELTA * 32 mod 2^32` (T-R5, R126). -/
def DSUM0 : Word := 0xC6EF3720

/-- "exactly 32 rounds" (T-R5). -/
def ROUNDS : Nat := 32

/-- `CAP`, the capacity in characters of each input buffer (T-R6).
The register map T-R51 is laid out for this value, and `State`'s buffers have this many entries.
R6 lets a model take `CAP` and `WS` as arguments; here they are constants (DESIGN CHOICE, log entry 9). -/
def CAP : Nat := 64

/-- Hex digits of a padded key string (T-R5). -/
def KEY_DIGITS : Nat := 32

/-- Hex digits per key word (T-R5). -/
def CHUNK_DIGITS : Nat := 8

/-- Most digits an output string can have (T-R5). -/
def OUT_MAX_DIGITS : Nat := 16

/-- `WS`, the codes that count as whitespace (R76). -/
def WS : List Ch := [0x09, 0x0A, 0x0B, 0x0C, 0x0D, 0x20]

/-- FREE VALUE (DESIGN CHOICE, unsafe, log entry 1): what reset number `n` leaves in the register at index `index` of T-R51, for
the registers whose reset value R35 calls unspecified. A character takes the low 8 bits. -/
opaque resetWord (n index : Nat) : Word

/-- FREE VALUE (DESIGN CHOICE, log entry 2): what draw number `n` returns to a HOST that reads, while
`BUSY`, any register other than `STATUS` (R61); a read repeated at once is the same draw (R54). -/
opaque busyRead (n : Nat) : Word

end Sys2Proof.Config
end

