-- ==== Sys2Proof/Syntax.lean ====
section
/-! DEFINITION. The command set: the seven rows of spec/opcode_table.json (rule R71). -/

namespace Sys2Proof

/-- One constructor per row of T-R71. No command carries an operand (R70, R83); `EXPAND` is a second
spelling of `DECKEY` with no encoding of its own (R118), so it has no constructor (DEDUCED, safe, log entry 10). -/
inductive Instr where
  /-- `DECKEY` (alias `EXPAND`), R97. -/
  | decKey
  /-- `DECBLK`, R98. -/
  | decBlk
  /-- `ENCBLK`, R99. -/
  | encBlk
  /-- `ENCR`, R133. -/
  | encR
  /-- `DECR`, R134. -/
  | decR
  /-- `ENCRYPT`, R152. -/
  | encrypt
  /-- `DECRYPT`, R153. -/
  | decrypt
  deriving DecidableEq, Repr

end Sys2Proof
end

