-- ==== Sys2Proof/WellFormed.lean ====
section
/-! DEFINITION. What a well-formed command, command word and host string are. A command has no operand
field, so nothing about a command itself can be ill-formed; what can be is the 32-bit word written to
`CMD` (rules R70, R72) and the length of a string the HOST presents (rules R6, R82). -/

namespace Sys2Proof

/-- Every command is well-formed: it has no register, immediate or mode field (R70, R83). -/
def Instr.wf : Instr → Bool
  | .decKey => true
  | .decBlk => true
  | .encBlk => true
  | .encR => true
  | .decR => true
  | .encrypt => true
  | .decrypt => true

/-- The `OP` values that R72 lists as reserved, with any `RSVD`. -/
def reservedOps : List Nat := [0x0, 0x6, 0x7, 0xA, 0xB, 0xC, 0xD, 0xE, 0xF]

/-- `RSVD` = bits [31:4] must be 0 (R70). -/
def reservedBitsClear (w : Word) : Bool := w.toNat / 16 == 0

/-- `OP` = bits [3:0] is not one of the reserved values (R72). -/
def opAssigned (w : Word) : Bool := !reservedOps.contains (w.toNat % 16)

/-- A command word is legal when its reserved bits are 0 and its opcode is assigned (R70, R72). -/
def commandWordWf (w : Word) : Bool := reservedBitsClear w && opAssigned w

/-- A string that fits an input buffer, so that the HOST can present it (R6, R82). -/
def stringFits (s : Str) : Bool := decide (s.length ≤ Config.CAP)

end Sys2Proof
end

