-- ==== Sys2Proof/Decode.lean ====
section
/-! DEFINITION. The command decoder, total on 32-bit words and rejecting by name (rules R70 to R72), and
the encoder, written from the words of table T-R71. -/

namespace Sys2Proof

/-- Why a command word is illegal (R72). Nothing of this is recorded by the machine (R164). -/
inductive Illegal where
  /-- `RSVD` is not 0; it carries the field's value. -/
  | reservedBits (rsvd : BitVec 28)
  /-- `OP` is one of the reserved opcodes; it carries the field's value. -/
  | reservedOp (op : BitVec 4)
  deriving DecidableEq, Repr

/-- `OP` = bits [3:0] (T-R70). -/
def opField (w : Word) : BitVec 4 := w.extractLsb' 0 4

/-- `RSVD` = bits [31:4] (T-R70). -/
def rsvdField (w : Word) : BitVec 28 := w.extractLsb' 4 28

/-- The opcode map on the `OP` field (T-R71); none for a reserved opcode. -/
def opcode (op : BitVec 4) : Option Instr :=
  match op.toNat with
  | 0x1 => some .decKey
  | 0x2 => some .decBlk
  | 0x3 => some .encBlk
  | 0x4 => some .encR
  | 0x5 => some .decR
  | 0x8 => some .encrypt
  | 0x9 => some .decrypt
  | _ => none

/-- R72: every 32-bit word is one of the seven commands or illegal. -/
def decode (w : Word) : Except Illegal Instr :=
  if rsvdField w ≠ 0 then .error (.reservedBits (rsvdField w))
  else match opcode (opField w) with
    | some i => .ok i
    | none => .error (.reservedOp (opField w))

/-- The column "word" of T-R71. -/
def encode : Instr → Word
  | .decKey => 0x00000001
  | .decBlk => 0x00000002
  | .encBlk => 0x00000003
  | .encR => 0x00000004
  | .decR => 0x00000005
  | .encrypt => 0x00000008
  | .decrypt => 0x00000009

/-- What the decoder reads from a row of spec/opcode_table.json whose `nbits` bits are `w`: a command is
one 32-bit word (R84), the bits above `nbits` are 0. -/
def decodeTableWord (nbits w : Nat) : Option Instr :=
  (decode (BitVec.ofNat 32 (w % 2 ^ nbits))).toOption

end Sys2Proof
end

