-- ==== Sys2Proof/Machine/State.lean ====
section
/-! DEFINITION. The state of one instance: the fields of table T-R20 (rules R20 to R30), the state after
reset (table T-R35), and the model's own fields that hold what stands outside the hardware: the inputs
still to come, the words the HOST has read, and the counter of free values. -/

namespace Sys2Proof.Machine

/-- The four subkey words, `K[0]` the most significant (R21). -/
structure Key where
  k0 : Word
  k1 : Word
  k2 : Word
  k3 : Word
  deriving DecidableEq, Repr

/-- One HOST access of a whole 32-bit register (R52). -/
inductive HostAccess where
  /-- `MemRead(index, 4)`. -/
  | read (index : RegIndex)
  /-- `MemWrite(index, 4, value)`. -/
  | write (index : RegIndex) (value : Word)
  deriving DecidableEq, Repr

/-- One event of the outside world (R9, R37): which agent moves next is plain data
(DESIGN CHOICE, log entry 3). -/
inductive Input where
  /-- The HOST makes one register access (R52, R59). -/
  | access (x : HostAccess)
  /-- The CORE takes a step of the command in flight that is not its last one (R60; `LAT`, R188). -/
  | coreProgress
  /-- The CORE is scheduled for the step that ends the command in flight (R60). -/
  | coreTurn
  /-- The reset event, applied from outside (R180). -/
  | reset
  deriving DecidableEq, Repr

/-- What one HOST read returned. -/
structure Reply where
  index : RegIndex
  value : Word
  deriving DecidableEq, Repr

/-- One instance of the hardware (T-R20), driven by one HOST (log entry 16), and the model's own record of
its outside. -/
structure State where
  /-- `K[0..3]` (R21). -/
  k : Key
  /-- `L`, the high half of the block (R22). -/
  l : Word
  /-- `R`, the low half of the block (R22). -/
  r : Word
  /-- `SUM`, the delta accumulator (R23). -/
  sum : Word
  /-- `RND`, the round counter (R24). -/
  rnd : BitVec 6
  /-- `STATUS`: `STATE` [1:0], `ERR` [3:2], `PARAM` [5:4] (R26). -/
  status : BitVec 6
  /-- `OPLATCH`, internal: the command word accepted last (R27); the end of a command leaves it (log entry
  14). -/
  opLatch : Word
  /-- `DLEN` (R28). -/
  dlen : BitVec 8
  /-- `KLEN` (R28). -/
  klen : BitVec 8
  /-- `OLEN` (R28). -/
  olen : BitVec 5
  /-- `DIN[0..63]` (R29). -/
  din : Vector Ch 64
  /-- `KIN[0..63]` (R29). -/
  kin : Vector Ch 64
  /-- `DOUT[0..15]` (R30). -/
  dout : Vector Ch 16
  /-- The model's own: the events still to come, next first (log entry 3). -/
  inputs : List Input
  /-- The model's own: what the HOST's reads returned, newest first (log entry 4). -/
  replies : List Reply
  /-- The model's own: the number of the current free value (log entries 1, 2 and 13). -/
  draws : Nat
  deriving DecidableEq, Repr

/-- There is no fault: "there is no trap, no hang and no undefined result in any command" (R7), and no
access faults (R53). Nothing raises one, so the type is empty (DEDUCED, safe, log
entry 8). -/
inductive Fault where
  deriving DecidableEq, Repr

/-- Why a step has no meaning. -/
inductive Refusal where
  /-- Raised by an arm of `exec` for a command that has no meaning yet; safe. No arm raises it. -/
  | notModelled (mnemonic : String)
  deriving DecidableEq, Repr

/-- The state that reset number `n` leaves (T-R35): the registers the table gives a value hold it, and
those it calls unspecified hold the free value of their index (log entry 1). -/
def State.resetAt (n : Nat) : State where
  k := ⟨Config.resetWord n 0x04, Config.resetWord n 0x05, Config.resetWord n 0x06, Config.resetWord n 0x07⟩
  l := Config.resetWord n 0x02
  r := Config.resetWord n 0x03
  sum := Config.resetWord n 0x08
  rnd := 0
  status := 0x00
  opLatch := 0
  dlen := 0
  klen := 0
  olen := 0
  din := Vector.ofFn fun i => (Config.resetWord n (0x40 + i.val)).setWidth 8
  kin := Vector.ofFn fun i => (Config.resetWord n (0x80 + i.val)).setWidth 8
  dout := Vector.replicate 16 0
  inputs := []
  replies := []
  draws := n + 1

/-- The machine right after reset (T-R35, R180). -/
def State.reset : State := State.resetAt 0

end Sys2Proof.Machine
end

