-- ==== Sys2Proof/Machine/Flags.lean ====
section
/-! DEFINITION. The `STATUS` register's fields and values, and the error kinds it reports (rules R26, R79,
R160, R166). The hardware has no other flags: no carry, overflow, zero or sign (R32). -/

namespace Sys2Proof.Machine

/-- The three error kinds (R160). -/
inductive ErrKind where
  | invalidArgument
  | malformedInput
  | protocolError
  deriving DecidableEq, Repr

/-- Which parameter an error names; with `ProtocolError`, `none` is the command word itself (R26). -/
inductive Param where
  | none
  | data
  | key
  deriving DecidableEq, Repr

/-- `E(p)`, what a command raises: an error kind and a parameter identifier (R13). -/
structure Raise where
  kind : ErrKind
  param : Param
  deriving DecidableEq, Repr

/-- `code(E)`, the field `ERR` (R26). -/
def ErrKind.code : ErrKind → BitVec 6
  | .invalidArgument => 1
  | .malformedInput => 2
  | .protocolError => 3

/-- `id(p)`, the field `PARAM` (R26). -/
def Param.id : Param → BitVec 6
  | .none => 0
  | .data => 1
  | .key => 2

/-- `IDLE`: no command since reset (R26). -/
def statusIdle : BitVec 6 := 0x00

/-- `BUSY`: a command is in progress (R26). -/
def statusBusy : BitVec 6 := 0x01

/-- `DONE`: the last command completed without error (R26). -/
def statusDone : BitVec 6 := 0x02

/-- `3 | (code(E) << 2) | (id(p) << 4)` (R166). -/
def errorStatus (e : Raise) : BitVec 6 := 3 ||| (e.kind.code <<< 2) ||| (e.param.id <<< 4)

/-- `STATUS.STATE` = `STATUS[1:0]` (R26). -/
def stateField (b : BitVec 6) : BitVec 2 := b.extractLsb' 0 2

/-- `STATUS.ERR` = `STATUS[3:2]` (R26). -/
def errField (b : BitVec 6) : BitVec 2 := b.extractLsb' 2 2

/-- `STATUS.PARAM` = `STATUS[5:4]` (R26). -/
def paramField (b : BitVec 6) : BitVec 2 := b.extractLsb' 4 2

/-- `STATUS.STATE` = `BUSY` (R26), whatever the other fields hold (log entry 15). -/
def State.busy (s : State) : Bool := stateField s.status == 1

/-- `ProtocolError(cmd)`: an illegal command word (R163). -/
def raiseCommand : Raise := ⟨.protocolError, .none⟩

/-- The error that a value of `STATUS` reports to the HOST (R79, R82); none when it reports no error. -/
def reportedError (b : BitVec 6) : Option Raise :=
  if stateField b ≠ 3 then Option.none
  else
    match (errField b).toNat, (paramField b).toNat with
    | 1, 1 => some ⟨.invalidArgument, .data⟩
    | 1, 2 => some ⟨.invalidArgument, .key⟩
    | 2, 1 => some ⟨.malformedInput, .data⟩
    | 2, 2 => some ⟨.malformedInput, .key⟩
    | 3, 0 => some ⟨.protocolError, .none⟩
    | 3, 1 => some ⟨.protocolError, .data⟩
    | 3, 2 => some ⟨.protocolError, .key⟩
    | _, _ => Option.none

end Sys2Proof.Machine
end

