-- ==== Sys2Proof/Machine/Operands.lean ====
section
/-! DEFINITION. The operands of the commands: the characters and their classes (rules R73 to R76, R90), and
the two strings a command reads from the buffers (rules R83, R101, R163). No command word carries an
operand. -/

namespace Sys2Proof.Machine

/-- `hexval(c)` on the 22 hex digits (R74); none elsewhere, where the spec leaves it undefined and
never calls it (DEDUCED, safe, log entry 12). -/
def hexVal? (c : Ch) : Option Nat :=
  let n := c.toNat
  if 0x30 ≤ n ∧ n ≤ 0x39 then some (n - 0x30)
  else if 0x41 ≤ n ∧ n ≤ 0x46 then some (n - 0x41 + 10)
  else if 0x61 ≤ n ∧ n ≤ 0x66 then some (n - 0x61 + 10)
  else none

/-- `isHex(c)` (R74). -/
def isHex (c : Ch) : Bool := (hexVal? c).isSome

/-- `allHex(s)`, true of the empty string (R90). -/
def allHex (s : Str) : Bool := s.all isHex

/-- `hexchar(n)` for `n` in 0 .. 15, always lowercase (R74). -/
def hexChar (n : Nat) : Ch :=
  if n ≤ 9 then BitVec.ofNat 8 (0x30 + n) else BitVec.ofNat 8 (0x61 + n - 10)

/-- Reading one more digit multiplies the value so far by 16 and adds the digit (R56). -/
def hexNatFrom (acc : Nat) : Str → Option Nat
  | [] => some acc
  | c :: cs =>
    match hexVal? c with
    | some d => hexNatFrom (16 * acc + d) cs
    | none => none

/-- `hexnat(s)`: base 16, first character most significant; some value exactly when `allHex(s)` (R90). -/
def hexNat? (s : Str) : Option Nat := hexNatFrom 0 s

/-- Whitespace is the set `WS` (R76). -/
def isWhitespace (c : Ch) : Bool := Config.WS.contains c

/-- `isBlank(s)`: empty, or whitespace only (R150). -/
def isBlank (s : Str) : Bool := s.all isWhitespace

/-- The string that a buffer and its length register hold (R29); a length above `CAP` ends the command
with `ProtocolError`, naming the string (R101, R163). Where the HOST has raised the length over characters
that nothing has written since reset, the string holds their free values and the command runs on them: R36
and R183 do not reckon with that case (DESIGN CHOICE, unsafe, log entry 18). -/
def stringOperand (buffer : Vector Ch 64) (len : BitVec 8) (p : Param) : Except Raise Str :=
  if len.toNat > Config.CAP then .error ⟨.protocolError, p⟩
  else .ok (buffer.toList.take len.toNat)

/-- The data string `DIN[0 .. DLEN-1]` (R29). -/
def dataString (s : State) : Except Raise Str := stringOperand s.din s.dlen .data

/-- The key string `KIN[0 .. KLEN-1]` (R29). -/
def keyString (s : State) : Except Raise Str := stringOperand s.kin s.klen .key

/-- The output string `DOUT[0 .. OLEN-1]` (R30). -/
def outputString (s : State) : Str := s.dout.toList.take s.olen.toNat

end Sys2Proof.Machine
end

