-- ==== Sys2Proof/Machine/Ops.lean ====
section
/-! DEFINITION. The operations the commands share: word arithmetic (rule R125), error entry (R166) and
leaving the error state (R168), the commit of results (R13, R154) and of the output string (R30, R101),
and the reset event (R180). -/

namespace Sys2Proof.Machine

/-! ## Word arithmetic (R125): modulo 2^32, no flag, no trap -/

/-- `(a + b) mod 2^32`. -/
def add32 (a b : Word) : Word := a + b

/-- `(a - b) mod 2^32`. -/
def sub32 (a b : Word) : Word := a - b

/-- `(a * 2^n) mod 2^32`: a logical shift. -/
def shl32 (a : Word) (n : Nat) : Word := a <<< n

/-- `floor(a / 2^n)`: a logical shift, zeros enter at bit 31. -/
def shr32 (a : Word) (n : Nat) : Word := a >>> n

/-- Bitwise exclusive or. -/
def xor32 (a b : Word) : Word := a ^^^ b

/-! ## Ending a command -/

/-- Error entry (R166): the command ends, `STATUS` takes the error's value, and no other state changes.
There is no saved program counter, no cause or status stack and no mode, because none exists. -/
def raise (e : Raise) (s : State) : State := { s with status := errorStatus e }

/-- Leaving the error state, and every other start of a command (R27, R168): an accepted write of `w` to
`CMD` latches the word and replaces `STATUS` by `BUSY`. There is no return operation, and nothing was
saved that could be restored. -/
def acceptCommand (w : Word) (s : State) : State := { s with opLatch := w, status := statusBusy }

/-- `STATUS <- 0x02`, the last assignment of every successful commit. -/
def complete (s : State) : State := { s with status := statusDone }

/-- A command's single final step: commit all its results, or only the error (R13, R60, R154, R166). It is
the command's last CORE step, and does all its work (DESIGN CHOICE that R60 allows, log entry 6). -/
def finish {α : Type} (result : Except Raise α) (commit : α → State → State) (s : State) :
    Host.Outcome State Fault Refusal :=
  match result with
  | .ok a => .next (complete (commit a s))
  | .error e => .next (raise e s)

/-! ## Committing results -/

/-- `K[0..3] <- W` (R21). -/
def setKey (w : Key) (s : State) : State := { s with k := w }

/-- `L <- l; R <- r` (R22). -/
def setBlock (l r : Word) (s : State) : State := { s with l := l, r := r }

/-- `SUM <- sum; RND <- n` (R23, R24). -/
def setCounters (sum : Word) (n : Nat) (s : State) : State :=
  { s with sum := sum, rnd := BitVec.ofNat 6 n }

/-- All 16 entries of `DOUT`: the characters of the string, then 0 (R30). -/
def outputBuffer (o : Str) : Vector Ch 16 := Vector.ofFn fun j => o.getD j.val 0

/-- `OLEN <- |o|` and all of `DOUT` (R30, R101). -/
def setOutput (o : Str) (s : State) : State :=
  { s with olen := BitVec.ofNat 5 o.length, dout := outputBuffer o }

/-! ## Reset and loading -/

/-- The reset event (R180): every register takes its value of T-R35 and a command in flight is abandoned.
What stands outside the hardware, the coming inputs and the words the HOST has read, is not reset
(DESIGN CHOICE, log entry 13). -/
def applyReset (s : State) : State :=
  { State.resetAt s.draws with inputs := s.inputs, replies := s.replies }

/-- The state in which the very next step is the CORE executing command word `w`: `w` accepted, and the
CORE scheduled before whatever comes next (log entry 5). -/
def loadCommand (w : Word) (s : State) : State :=
  { acceptCommand w s with inputs := .coreTurn :: s.inputs }

end Sys2Proof.Machine
end

