-- ==== Sys2Proof/Machine/BlockCipher.lean ====
section
/-! DEFINITION. The BlockCipherCore: the mixing function, the rounds and the 32-round functions (rules R127
to R132), and the commands `ENCR` and `DECR` (R133, R134). -/

namespace Sys2Proof.Machine

/-- What one round reads and writes: the halves and the sum (R128, R130). -/
structure RoundState where
  l : Word
  r : Word
  sum : Word
  deriving DecidableEq, Repr

/-- R127: `((v << 4) + ka) xor (v + s) xor ((v >> 5) + kb)`. -/
def mix (v s ka kb : Word) : Word :=
  xor32 (xor32 (add32 (shl32 v 4) ka) (add32 v s)) (add32 (shr32 v 5) kb)

/-- One encrypt round (R128): the sum advances first, and `R'` is computed from the new `L'`. -/
def encRound (k : Key) (x : RoundState) : RoundState :=
  let sum' := add32 x.sum Config.DELTA
  let l' := add32 x.l (mix x.r sum' k.k0 k.k1)
  let r' := add32 x.r (mix l' sum' k.k2 k.k3)
  ⟨l', r', sum'⟩

/-- One decrypt round (R130): `R` is undone first, `L'` is computed from the new `R'`, and the sum steps
back last. -/
def decRound (k : Key) (x : RoundState) : RoundState :=
  let r' := sub32 x.r (mix x.l x.sum k.k2 k.k3)
  let l' := sub32 x.l (mix r' x.sum k.k0 k.k1)
  let sum' := sub32 x.sum Config.DELTA
  ⟨l', r', sum'⟩

/-- `repeat n times` (R129, R131, R132): no branch and no early end. -/
def repeatRounds (f : RoundState → RoundState) : Nat → RoundState → RoundState
  | 0, x => x
  | n + 1, x => repeatRounds f n (f x)

/-- The 32 encrypt rounds from sum 0 (R129). -/
def encryptRounds (k : Key) (l r : Word) : RoundState :=
  repeatRounds (encRound k) Config.ROUNDS ⟨l, r, 0⟩

/-- The 32 decrypt rounds from sum `DSUM0` (R131). -/
def decryptRounds (k : Key) (l r : Word) : RoundState :=
  repeatRounds (decRound k) Config.ROUNDS ⟨l, r, Config.DSUM0⟩

/-- `Encrypt(L, R, K)` (R129). -/
def encryptBlock (k : Key) (l r : Word) : Word × Word :=
  ((encryptRounds k l r).l, (encryptRounds k l r).r)

/-- `Decrypt(L, R, K)` (R131). -/
def decryptBlock (k : Key) (l r : Word) : Word × Word :=
  ((decryptRounds k l r).l, (decryptRounds k l r).r)

/-- The commit of `ENCR` and `DECR`: `L`, `R`, `SUM` from the last round, and the round count (R133). -/
def setRounds (x : RoundState) (s : State) : State :=
  setCounters x.sum Config.ROUNDS (setBlock x.l x.r s)

/-- `ENCR` (R133): run the 32 encrypt rounds on the registers; it has no error outcome. -/
def execEncR (s : State) : Host.Outcome State Fault Refusal :=
  finish (.ok (encryptRounds s.k s.l s.r)) setRounds s

/-- `DECR` (R134): run the 32 decrypt rounds on the registers; it has no error outcome. -/
def execDecR (s : State) : Host.Outcome State Fault Refusal :=
  finish (.ok (decryptRounds s.k s.l s.r)) setRounds s

end Sys2Proof.Machine
end

