-- ==== Sys2Proof/Machine/HexCodec.lean ====
section
/-! DEFINITION. The HexCodec: its pure functions (rules R91 to R96), the KeySchedule's `expand` (R115), and
the commands `DECKEY`, `DECBLK`, `ENCBLK` (R97 to R99). -/

namespace Sys2Proof.Machine

/-! ## Functions -/

/-- R91: remove one leading "0x" or "0X"; anything else is returned unchanged. -/
def stripHexPrefix : Str → Str
  | c0 :: c1 :: rest => if c0 = 0x30 ∧ (c1 = 0x78 ∨ c1 = 0x58) then rest else c0 :: c1 :: rest
  | s => s

/-- R92: put one "0" in front of a string of odd length. -/
def padToEvenLength (s : Str) : Str := if s.length % 2 = 1 then 0x30 :: s else s

/-- R93: an 8-character chunk as a word; none when a character is not a hex digit. -/
def parseHex32? (c : Str) : Option Word := (hexNat? c).map (BitVec.ofNat 32)

/-- `t[8*i .. 8*i+7]` (R94). -/
def chunk (t : Str) (i : Nat) : Str := (t.drop (Config.CHUNK_DIGITS * i)).take Config.CHUNK_DIGITS

/-- R94: strip the prefix, pad to even length, demand exactly 32 hex digits, and read them as four words,
the first the most significant. -/
def decodeKeyWords (hex : Str) : Except Raise Key :=
  let t := padToEvenLength (stripHexPrefix hex)
  if t.length ≠ Config.KEY_DIGITS then .error ⟨.malformedInput, .key⟩
  else
    match parseHex32? (chunk t 0), parseHex32? (chunk t 1), parseHex32? (chunk t 2),
      parseHex32? (chunk t 3) with
    | some w0, some w1, some w2, some w3 => .ok ⟨w0, w1, w2, w3⟩
    | _, _, _, _ => .error ⟨.malformedInput, .key⟩

/-- R115: "delegating directly to `HexCodec.decodeKeyWords`. No additional transformation". -/
def expand (keyHex : Str) : Except Raise Key := decodeKeyWords keyHex

/-- R95: strip the prefix and read the whole remainder as one number of at most 64 bits, the high half
first. The result is the pair (`L`, `R`). -/
def decodeBlock (hex : Str) : Except Raise (Word × Word) :=
  let t := stripHexPrefix hex
  if t.length = 0 then .error ⟨.malformedInput, .data⟩
  else
    match hexNat? t with
    | none => .error ⟨.malformedInput, .data⟩
    | some value =>
      if value ≥ 2 ^ 64 then .error ⟨.malformedInput, .data⟩
      else .ok (BitVec.ofNat 32 (value >>> 32), BitVec.ofNat 32 (value % 2 ^ 32))

/-- `zext_64(L) * 2^32 + zext_64(R)`, the block's value (R22, R96). -/
def blockValue (l r : Word) : Nat := 2 ^ 32 * l.toNat + r.toNat

/-- R96: the least `n` in 1 .. 16 with `value < 16^n`; a value of 64 bits always has one. -/
def digitCount (value : Nat) : Nat :=
  ((List.range' 1 Config.OUT_MAX_DIGITS).find? fun n => value < 16 ^ n).getD Config.OUT_MAX_DIGITS

/-- R96: lowercase hexadecimal, no prefix, no leading zero, and "0" for the value 0. -/
def encodeBlock (l r : Word) : Str :=
  let value := blockValue l r
  if value = 0 then [0x30]
  else
    let n := digitCount value
    (List.range n).map fun j => hexChar ((value >>> (4 * (n - 1 - j))) % 16)

/-! ## Commands -/

/-- `DECKEY` (R97): decode the key string into `K`. -/
def execDecKey (s : State) : Host.Outcome State Fault Refusal :=
  finish ((keyString s).bind decodeKeyWords) setKey s

/-- `DECBLK` (R98): decode the data string into `L` and `R`. -/
def execDecBlk (s : State) : Host.Outcome State Fault Refusal :=
  finish ((dataString s).bind decodeBlock) (fun b => setBlock b.1 b.2) s

/-- `ENCBLK` (R99): encode `L` and `R` as the output string; it has no error outcome. -/
def execEncBlk (s : State) : Host.Outcome State Fault Refusal :=
  finish (.ok (encodeBlock s.l s.r)) setOutput s

end Sys2Proof.Machine
end

