-- ==== Sys2Proof/Machine/Facade.lean ====
section
/-! DEFINITION. The CipherFacade: the validated sequence of a whole call (rule R151) and the commands
`ENCRYPT` and `DECRYPT` (R152, R153). -/

namespace Sys2Proof.Machine

/-- The argument `dir` of R151. -/
inductive Direction where
  | encrypt
  | decrypt
  deriving DecidableEq, Repr

/-- `dir(L, R, K)` (R151 step 4). -/
def Direction.apply : Direction → Key → Word → Word → Word × Word
  | .encrypt => encryptBlock
  | .decrypt => decryptBlock

/-- What the commit writes to `SUM` (R152, R153). -/
def Direction.finalSum : Direction → Word
  | .encrypt => Config.DSUM0
  | .decrypt => 0

/-- What a facade command computes before it commits: the key words and the result halves. -/
structure FacadeResult where
  k : Key
  l : Word
  r : Word
  deriving DecidableEq, Repr

/-- Steps 1 to 4 of R151, in that order; the first error met is the one raised. -/
def facadeBlocks (dir : Direction) (data key : Str) : Except Raise FacadeResult :=
  if isBlank data then .error ⟨.invalidArgument, .data⟩
  else if isBlank key then .error ⟨.invalidArgument, .key⟩
  else (expand key).bind fun k =>
    (decodeBlock data).bind fun b =>
      .ok ⟨k, (dir.apply k b.1 b.2).1, (dir.apply k b.1 b.2).2⟩

/-- `facade(dir, data, key)` (R151): the pure function that one whole call computes. -/
def facade (dir : Direction) (data key : Str) : Except Raise Str :=
  (facadeBlocks dir data key).map fun x => encodeBlock x.l x.r

/-- The two length tests, data before key, and then the sequence of R151 on the strings of the buffers
(R152). -/
def facadeOperands (dir : Direction) (s : State) : Except Raise FacadeResult :=
  (dataString s).bind fun data => (keyString s).bind fun key => facadeBlocks dir data key

/-- The one commit of a facade command (R152, R153, R154). -/
def setFacade (dir : Direction) (x : FacadeResult) (s : State) : State :=
  setOutput (encodeBlock x.l x.r)
    (setCounters dir.finalSum Config.ROUNDS (setBlock x.l x.r (setKey x.k s)))

/-- `ENCRYPT` (R152): one whole encrypt call. -/
def execEncrypt (s : State) : Host.Outcome State Fault Refusal :=
  finish (facadeOperands .encrypt s) (setFacade .encrypt) s

/-- `DECRYPT` (R153): one whole decrypt call. -/
def execDecrypt (s : State) : Host.Outcome State Fault Refusal :=
  finish (facadeOperands .decrypt s) (setFacade .decrypt) s

end Sys2Proof.Machine
end

