-- ==== Sys2Proof/Machine/Dispatch.lean ====
section
/-! DEFINITION. Which meaning each command of T-R71 has. -/

namespace Sys2Proof.Machine

def exec (i : Instr) (s : State) : Host.Outcome State Fault Refusal :=
  match i with
  | .decKey => Sys2Proof.Machine.execDecKey s
  | .decBlk => Sys2Proof.Machine.execDecBlk s
  | .encBlk => Sys2Proof.Machine.execEncBlk s
  | .encR => Sys2Proof.Machine.execEncR s
  | .decR => Sys2Proof.Machine.execDecR s
  | .encrypt => Sys2Proof.Machine.execEncrypt s
  | .decrypt => Sys2Proof.Machine.execDecrypt s

end Sys2Proof.Machine
end

