-- ==== Sys2Proof/Machine/HostPort.lean ====
section
/-! DEFINITION. The host register space `REG` (rules R50 to R54, R61): the register map T-R51, the HOST's two
primitives `MemRead` and `MemWrite`, and one HOST access. There is no other memory: no data memory, no
instruction memory and no byte addressing (R50; DEDUCED, safe, log entry 7). -/

namespace Sys2Proof.Machine

/-- A register of T-R51, or an index that reaches none. -/
inductive Reg where
  | cmd
  | status
  | l
  | r
  | k (i : Fin 4)
  | sum
  | rnd
  | dlen
  | klen
  | olen
  | din (i : Fin 64)
  | kin (i : Fin 64)
  | dout (i : Fin 16)
  | unmapped
  deriving DecidableEq, Repr

/-- The register map (T-R51). -/
def regAt (a : RegIndex) : Reg :=
  let n := a.toNat
  if n = 0x00 then .cmd
  else if n = 0x01 then .status
  else if n = 0x02 then .l
  else if n = 0x03 then .r
  else if h : 0x04 ≤ n ∧ n ≤ 0x07 then .k ⟨n - 0x04, by omega⟩
  else if n = 0x08 then .sum
  else if n = 0x09 then .rnd
  else if n = 0x0A then .dlen
  else if n = 0x0B then .klen
  else if n = 0x0C then .olen
  else if h : 0x40 ≤ n ∧ n ≤ 0x7F then .din ⟨n - 0x40, by omega⟩
  else if h : 0x80 ≤ n ∧ n ≤ 0xBF then .kin ⟨n - 0x80, by omega⟩
  else if h : 0xC0 ≤ n ∧ n ≤ 0xCF then .dout ⟨n - 0xC0, by omega⟩
  else .unmapped

/-- `K[i]`. -/
def Key.get (k : Key) (i : Fin 4) : Word :=
  match i.val with
  | 0 => k.k0
  | 1 => k.k1
  | 2 => k.k2
  | _ => k.k3

/-- `K[i] <- v`. -/
def Key.set (k : Key) (i : Fin 4) (v : Word) : Key :=
  match i.val with
  | 0 => { k with k0 := v }
  | 1 => { k with k1 := v }
  | 2 => { k with k2 := v }
  | _ => { k with k3 := v }

/-- A register's value, zero-extended to 32 bits (R52); `CMD` and an unmapped index read 0 (R53). -/
def readReg (s : State) : Reg → Word
  | .cmd => 0
  | .status => s.status.setWidth 32
  | .l => s.l
  | .r => s.r
  | .k i => s.k.get i
  | .sum => s.sum
  | .rnd => s.rnd.setWidth 32
  | .dlen => s.dlen.setWidth 32
  | .klen => s.klen.setWidth 32
  | .olen => s.olen.setWidth 32
  | .din i => s.din[i].setWidth 32
  | .kin i => s.kin[i].setWidth 32
  | .dout i => s.dout[i].setWidth 32
  | .unmapped => 0

/-- A register takes the bits of the written word that it has (R52); a write to a read-only register or
to an unmapped index is ignored (R53); a write to `CMD` is accepted as a command (R27, R54). -/
def writeReg (v : Word) (s : State) : Reg → State
  | .cmd => acceptCommand v s
  | .status => s
  | .l => { s with l := v }
  | .r => { s with r := v }
  | .k i => { s with k := s.k.set i v }
  | .sum => s
  | .rnd => s
  | .dlen => { s with dlen := v.setWidth 8 }
  | .klen => { s with klen := v.setWidth 8 }
  | .olen => s
  | .din i => { s with din := s.din.set i (v.setWidth 8) }
  | .kin i => { s with kin := s.kin.set i (v.setWidth 8) }
  | .dout _ => s
  | .unmapped => s

/-- Whether R61 leaves the value of a read open: the CORE is `BUSY` and the register is not `STATUS`. -/
def readIsOpen (a : RegIndex) (s : State) : Bool := s.busy && regAt a != .status

/-- The value `MemRead(a, 4)` returns (R52, R53); while `BUSY` only `STATUS` has a stated value (R61), and
any other read returns the current free value (log entry 2). -/
def memRead (a : RegIndex) (s : State) : Word :=
  if readIsOpen a s then Config.busyRead s.draws else readReg s (regAt a)

/-- The effect of `MemWrite(a, 4, v)` (R52 to R54); while `BUSY` every write is dropped (R61). -/
def memWrite (a : RegIndex) (v : Word) (s : State) : State :=
  if s.busy then s else writeReg v s (regAt a)

/-- The number of the current free value after a read of index `a`, where `s` lists the inputs after that read.
R54: reading a register twice with no step in between returns the same value, also where R61 leaves the
value open. So a drawn value stays the current one while the very next input repeats the read, and is
used up otherwise (log entry 2). -/
def drawsAfterRead (a : RegIndex) (s : State) : Nat :=
  if readIsOpen a s = true ∧ s.inputs.head? ≠ some (.access (.read a)) then s.draws + 1 else s.draws

/-- One HOST access, a single atomic step (R52); `s` lists the inputs after it. A read changes nothing in
the hardware (R54): the model notes what the HOST received, and counts the free value if one was used
up. -/
def serve (x : HostAccess) (s : State) : State :=
  match x with
  | .read a =>
    { s with
      replies := ⟨a, memRead a s⟩ :: s.replies
      draws := drawsAfterRead a s }
  | .write a v => memWrite a v s

end Sys2Proof.Machine
end

