-- ==== Sys2Proof/Machine/Turn.lean ====
section
/-! DEFINITION. What one event does: the CORE's step (rules R60, R72), a HOST access (R52) and a reset
(R180). -/

namespace Sys2Proof.Machine

/-- The CORE step that ends a command. While `BUSY` the CORE executes the command that `OPLATCH` encodes, all
of it in this one step (R27, R60; DESIGN CHOICE, log entry 6); an illegal word ends with `ProtocolError`, `PARAM` = 0 (R72). When it is not `BUSY` the CORE
has nothing to do (DESIGN CHOICE, log entry 11). -/
def coreStep (s : State) : Host.Outcome State Fault Refusal :=
  if s.busy then
    match decode s.opLatch with
    | .ok i => exec i s
    | .error _ => .next (raise raiseCommand s)
  else .next s

/-- What one input does to a state that no longer lists it. A CORE step before the last of a command changes
nothing that anyone can see: the CORE's working copies are not state (R33, R60; log entry 6). -/
def takeInput (x : Input) (s : State) : Host.Outcome State Fault Refusal :=
  match x with
  | .access a => .next (serve a s)
  | .coreProgress => .next s
  | .coreTurn => coreStep s
  | .reset => .next (applyReset s)

/-- The next event: the first listed input, and when none is left the CORE's step, so that the CORE is
never kept waiting for ever (R188, log entry 3). -/
def nextEvent (s : State) : Host.Outcome State Fault Refusal :=
  match s.inputs with
  | [] => coreStep s
  | x :: rest => takeInput x { s with inputs := rest }

end Sys2Proof.Machine
end

