-- ==== Sys2Proof/Machine/Step.lean ====
section
/-! DEFINITION. One step of the machine: one HOST access, one CORE step or one reset (rule R37). -/

namespace Sys2Proof.Machine

/-- One step (R37). -/
def step (s : State) : Host.Outcome State Fault Refusal := nextEvent s

/-- `s` with the command word `w` where the next step takes its command from: accepted in `OPLATCH`, the
CORE `BUSY` and scheduled next. There is no instruction memory to store it in (R25, R58; log entry 5). -/
def State.withFetchWord (s : State) (nbits w : Nat) : State :=
  loadCommand (BitVec.ofNat 32 (w % 2 ^ nbits)) s

end Sys2Proof.Machine
end

