-- ==== Sys2Proof/Machine/HostNotation.lean ====
section
/-! DEFINITION. The HOST's notation (rules R81, R82): the statements and pseudo-statements of spec/ as the
accesses they expand to, and the result a whole call yields. A statement's encoding `W index value` or
`R index` is a `HostAccess`; there is no binary program format (R81). -/

namespace Sys2Proof.Machine

/-- `index(reg)` (R81, T-R51); none for the unmapped indices, which are not one register. -/
def Reg.index? : Reg → Option RegIndex
  | .cmd => some 0x00
  | .status => some 0x01
  | .l => some 0x02
  | .r => some 0x03
  | .k i => some (BitVec.ofNat 8 (0x04 + i.val))
  | .sum => some 0x08
  | .rnd => some 0x09
  | .dlen => some 0x0A
  | .klen => some 0x0B
  | .olen => some 0x0C
  | .din i => some (BitVec.ofNat 8 (0x40 + i.val))
  | .kin i => some (BitVec.ofNat 8 (0x80 + i.val))
  | .dout i => some (BitVec.ofNat 8 (0xC0 + i.val))
  | .unmapped => none

/-- The writes of a string, character `j` to index `base + j` (R82). -/
def putChars (base : Nat) : Str → List Input
  | [] => []
  | c :: cs => .access (.write (BitVec.ofNat 8 base) (c.setWidth 32)) :: putChars (base + 1) cs

/-- `PUTD "s"` (R82); the string fits the buffer (`stringFits`). -/
def putD (s : Str) : List Input :=
  putChars 0x40 s ++ [.access (.write 0x0A (BitVec.ofNat 32 s.length))]

/-- `PUTK "s"` (R82); the string fits the buffer (`stringFits`). -/
def putK (s : Str) : List Input :=
  putChars 0x80 s ++ [.access (.write 0x0B (BitVec.ofNat 32 s.length))]

/-- A command mnemonic on a line by itself: `WR CMD, word` (R82). -/
def command (i : Instr) : List Input := [.access (.write 0x00 (encode i))]

/-- `WAIT` (R82): reads of `STATUS` until one is not `BUSY`. The first `polls` of them come before the
CORE's step and meet `BUSY`; how many there are means nothing (R189; DESIGN CHOICE, log entry
17). -/
def wait (polls : Nat) : List Input :=
  List.replicate polls (.access (.read 0x01)) ++ [.coreTurn, .access (.read 0x01)]

/-- The reads of `GETO` once `RD OLEN` has given `n` (R82). -/
def getOReads (n : Nat) : List Input :=
  .access (.read 0x0C) :: (List.range n).map fun i => .access (.read (BitVec.ofNat 8 (0xC0 + i)))

/-- The string that `GETO` yields: `RD OLEN` giving `n`, then `RD DOUT[0]` .. `RD DOUT[n-1]` (R82). -/
def getO (s : State) : Str :=
  (List.range (memRead 0x0C s).toNat).map fun i => (memRead (BitVec.ofNat 8 (0xC0 + i)) s).setWidth 8

/-- The command of a whole call (R14, R82). -/
def Direction.command : Direction → Instr
  | .encrypt => .encrypt
  | .decrypt => .decrypt

/-- The accesses of `encrypt(p, k)` or `decrypt(p, k)` up to the end of `WAIT` (R82). -/
def callInputs (dir : Direction) (p k : Str) (polls : Nat) : List Input :=
  putD p ++ putK k ++ command dir.command ++ wait polls

/-- The result of a call after `WAIT` (R82): `GETO` if `STATUS` is `0x02`, otherwise the error that
`STATUS` names; none while the CORE has ended no command. -/
def callResult (s : State) : Option (Except Raise Str) :=
  if s.status = statusDone then some (.ok (getO s))
  else (reportedError s.status).map .error

/-- `n` steps of the machine, stopping at a fault or a refusal. -/
def runSteps : Nat → State → Host.Outcome State Fault Refusal
  | 0, s => .next s
  | n + 1, s =>
    match step s with
    | .next t => runSteps n t
    | .fault f => .fault f
    | .refused r => .refused r

end Sys2Proof.Machine
end

