-- ==== Sys2Proof/Safety.lean ====
section
/-! DEFINITION. What the claims speak of: the legal states of the hardware (rules R24, R26, R28, R30, R35,
R79), the spec's own wording of the string formats (R77, R78, R80, R90), and which events may change
what. Nothing here is used by the machine. -/

namespace Sys2Proof.Machine

/-- "`STATUS` takes exactly the ten values of table T-R79". -/
def legalStatuses : List (BitVec 6) :=
  [0x00, 0x01, 0x02, 0x17, 0x27, 0x1B, 0x2B, 0x0F, 0x1F, 0x2F]

/-- The invariant of every reachable state (R24, R26, R28, R30, R79, and U8 of
93_implementation_defined.md). -/
structure State.Inv (s : State) : Prop where
  /-- T-R79. -/
  status_legal : s.status ∈ legalStatuses
  /-- R24: the only values of `RND` are 0 and 32. -/
  rnd_legal : s.rnd = 0 ∨ s.rnd = 32
  /-- R30, R101: the output buffer is empty as after reset, or holds the encoding of some block and 0
  in every entry after it. -/
  output_legal : (s.olen = 0 ∧ s.dout = Vector.replicate 16 0) ∨
    ∃ l r, s.olen = BitVec.ofNat 5 (encodeBlock l r).length ∧ s.dout = outputBuffer (encodeBlock l r)
  /-- T-R35: `STATE` is `IDLE` only before the first command, so nothing has left its reset value. -/
  idle_fresh : s.status = statusIdle →
    s.opLatch = 0 ∧ s.rnd = 0 ∧ s.olen = 0 ∧ s.dout = Vector.replicate 16 0

/-- `sum over j of hexval(s[j]) * 16^(|s|-1-j)` (R90); a character that is no digit counts 0, and no claim
uses the sum of a string that holds one. -/
def digitSum (s : Str) : Nat :=
  ((List.range s.length).map fun j => 16 ^ (s.length - 1 - j) * ((hexVal? (s.getD j 0)).getD 0)).sum

/-- The optional hex prefix: nothing, "0x" or "0X" (R75). -/
def optionalPrefixes : List Str := [[], [0x30, 0x78], [0x30, 0x58]]

/-- The 128-bit number whose bits 127..96 are `K[0]`, and so on down to `K[3]` (R21). -/
def Key.value (k : Key) : Nat :=
  2 ^ 96 * k.k0.toNat + 2 ^ 64 * k.k1.toNat + 2 ^ 32 * k.k2.toNat + k.k3.toNat

/-- The characters of an output string: `0`-`9` and `a`-`f` (R80). -/
def isOutputDigit (c : Ch) : Bool :=
  (decide (0x30 ≤ c.toNat) && decide (c.toNat ≤ 0x39)) || (decide (0x61 ≤ c.toNat) && decide (c.toNat ≤ 0x66))

/-- An upper-case hex letter lowered; every other character unchanged. -/
def lowerHex (c : Ch) : Ch :=
  if 0x41 ≤ c.toNat ∧ c.toNat ≤ 0x46 then BitVec.ofNat 8 (c.toNat + 0x20) else c

/-- The canonical form of a data string (R100): prefix removed, letters lowered, leading zeros removed,
"0" if nothing is left. -/
def canonical (s : Str) : Str :=
  let t := ((stripHexPrefix s).map lowerHex).dropWhile (· == 0x30)
  if t.isEmpty then [0x30] else t

/-- The values of `STATUS` that a command can end with (T-R178). -/
def outcomes : Instr → List (BitVec 6)
  | .decKey => [0x02, 0x2F, 0x2B]
  | .decBlk => [0x02, 0x1F, 0x1B]
  | .encBlk => [0x02]
  | .encR => [0x02]
  | .decR => [0x02]
  | .encrypt => [0x02, 0x1F, 0x2F, 0x17, 0x27, 0x2B, 0x1B]
  | .decrypt => [0x02, 0x1F, 0x2F, 0x17, 0x27, 0x2B, 0x1B]

/-- The next event of `s` is a CORE step, and `rest` are the inputs after it: the CORE is scheduled, or
no input is left. -/
def State.coreNext (s : State) (rest : List Input) : Prop :=
  s.inputs = .coreTurn :: rest ∨ (s.inputs = [] ∧ rest = [])

end Sys2Proof.Machine
end

