-- ==== Sys2Proof/Certificates/Slice0/Obligations.lean ====
section
/-! DEFINITION. The statements for the provers. Each docstring names the rule of spec/ it formalises; OBLIGATIONS.json
lists them. -/

open Sys2Proof Sys2Proof.Machine

/-! ## Command words -/

/-- T-R71: the seven words, written out, decode to the commands they stand for. -/
def Obligations.OpcodeMapWordsDecode : Prop :=
  decode 0x00000001#32 = .ok .decKey ∧ decode 0x00000002#32 = .ok .decBlk ∧
  decode 0x00000003#32 = .ok .encBlk ∧ decode 0x00000004#32 = .ok .encR ∧
  decode 0x00000005#32 = .ok .decR ∧ decode 0x00000008#32 = .ok .encrypt ∧
  decode 0x00000009#32 = .ok .decrypt

/-- R71: a word selects a command when, and only when, the whole 32-bit word is the word of the map. -/
def Obligations.WordSelectsCommandIffWholeWordEqual : Prop :=
  ∀ w : Word,
    (decode w = .ok .decKey ↔ w = 0x00000001) ∧ (decode w = .ok .decBlk ↔ w = 0x00000002) ∧
    (decode w = .ok .encBlk ↔ w = 0x00000003) ∧ (decode w = .ok .encR ↔ w = 0x00000004) ∧
    (decode w = .ok .decR ↔ w = 0x00000005) ∧ (decode w = .ok .encrypt ↔ w = 0x00000008) ∧
    (decode w = .ok .decrypt ↔ w = 0x00000009)

/-- R71, R84: decoding the encoding of any well-formed command gives the command back, from the word and
from its numbering in the opcode table. -/
def Obligations.DecodeOfEncodeIsTheCommand : Prop :=
  ∀ i : Instr, i.wf = true → decode (encode i) = .ok i ∧ commandWordWf (encode i) = true ∧
    decodeTableWord 32 (encode i).toNat = some i

/-- R72: the decoder accepts exactly the words whose reserved bits are 0 and whose opcode is not one of
the reserved ones; every other word is illegal. -/
def Obligations.DecoderAcceptsExactlyLegalWords : Prop :=
  ∀ w : Word, ((∃ i, decode w = .ok i) ↔ commandWordWf w = true) ∧
    ((∃ e, decode w = .error e) ↔ commandWordWf w = false)

/-- R72: the illegal words are exactly those not in T-R71, which are the words with a reserved `OP` and
those with `RSVD` not 0; the decoder says so of each; and one that is written while not `BUSY` is
accepted like any other, and then ends with `STATUS` = `0x0F`; no other state changes. That it ends in
the one CORE step after its acceptance is the model's choice (DESIGN CHOICE, log entry 6; `LAT` is
open). -/
def Obligations.IllegalWordEndsInProtocolError : Prop :=
  ∀ w : Word,
    ((∃ e, decode w = .error e) ↔ w ∉ [0x1#32, 0x2#32, 0x3#32, 0x4#32, 0x5#32, 0x8#32, 0x9#32]) ∧
    ((∃ e, decode w = .error e) ↔
      w.toNat % 16 ∈ [0x0, 0x6, 0x7, 0xA, 0xB, 0xC, 0xD, 0xE, 0xF] ∨ w.toNat / 16 ≠ 0) ∧
    ∀ (s : State) (rest : List Input), (∀ i, decode w ≠ .ok i) → s.busy = false →
      s.inputs = .access (.write 0x00 w) :: .coreTurn :: rest →
      step s = .next { s with inputs := .coreTurn :: rest, opLatch := w, status := 0x01 } ∧
      runSteps 2 s = .next { s with inputs := rest, opLatch := w, status := 0x0F }

/-! ## Starting and running a command -/

/-- R27: what a write to `CMD` does, when it is accepted and when it is not; that the accepted word is
the command the CORE executes; that `CMD` reads 0; and that no read shows `OPLATCH`. Two clauses rest on the
model's choices: that the command is executed in one CORE step (DESIGN CHOICE, log entry 6), and that
the open value of a read while `BUSY` is a function of the counter `draws`, so that it too does not
depend on `OPLATCH` (DESIGN CHOICE, log entry 2). -/
def Obligations.CommandWriteLatchesAndStarts : Prop :=
  ∀ (s : State) (w : Word) (rest : List Input),
    (s.inputs = .access (.write 0x00 w) :: rest →
      (s.busy = false → step s = .next { s with inputs := rest, opLatch := w, status := 0x01 }) ∧
      (s.busy = true → step s = .next { s with inputs := rest })) ∧
    (∀ i, s.busy = false → decode w = .ok i → s.inputs = .access (.write 0x00 w) :: .coreTurn :: rest →
      runSteps 2 s = exec i { s with inputs := rest, opLatch := w, status := 0x01 }) ∧
    (s.busy = false → memRead 0x00 s = 0) ∧
    (∀ a v, memRead a { s with opLatch := v } = memRead a s)

/-- R27: while `BUSY`, the CORE executes the command that `OPLATCH` encodes: its next turn is the meaning of
that command. That this one step is the whole command is the model's choice, which R60 allows (DESIGN
CHOICE, log entry 6), and that the CORE moves when no input is left is the model's schedule (DESIGN
CHOICE, log entry 3). -/
def Obligations.CoreStepRunsLatchedCommand : Prop :=
  ∀ (s : State) (i : Instr) (rest : List Input), s.busy = true → s.coreNext rest →
    decode s.opLatch = .ok i → step s = exec i { s with inputs := rest }

/-- The model's own entry point (log entry 5): after `withFetchWord` the very next step runs the command,
all of it (log entry 6), and nothing else has changed. -/
def Obligations.FetchWordIsRunByTheNextStep : Prop :=
  ∀ (s : State) (w : Word) (i : Instr), decode w = .ok i →
    step (s.withFetchWord 32 w.toNat) = exec i { s with opLatch := w, status := 0x01 }

/-- No state has a step that faults or is refused. This is the model's (DEDUCED from R7, R53 and R188, log
entry 8). It also rests on two of its choices: that a read while `BUSY` returns a free value, where R61
would let a model refuse it (DESIGN CHOICE, log entry 2), and that an idle CORE step changes nothing
(DESIGN CHOICE, log entry 11). -/
def Obligations.EveryStepAnswersNext : Prop :=
  ∀ s : State, ∃ t, step s = .next t

/-- R188: a command in flight ends, in `DONE` or `ERROR` or by a reset that the inputs list. The bound
counts the listed inputs: the CORE moves at the latest when none is left (log entry 3, the model's
choice of schedule), and its turn ends the command (DESIGN CHOICE, log entry 6). -/
def Obligations.CommandInFlightEnds : Prop :=
  ∀ s : State, s.busy = true → ∃ n t, n ≤ s.inputs.length + 1 ∧ runSteps n s = .next t ∧
    (stateField t.status = 2 ∨ stateField t.status = 3 ∨ (.reset ∈ s.inputs ∧ t.status = 0x00))

/-! ## Reset and the invariant -/

/-- R180: what reset leaves in every register that T-R35 gives a value, whatever the state and whether or
not a command was in flight; that the abandoned command commits nothing afterwards; that the hardware
then accepts a command at once; and that only a reset, so no command and no HOST access, leads to
`IDLE`. Of the registers T-R35 calls unspecified it says nothing. Three clauses rest on the model's
choices: that a reset leaves the record of replies and the coming inputs as they are (DESIGN CHOICE, log
entry 13), and that a CORE turn while no command is in flight changes nothing (DESIGN CHOICE, log entry
11). -/
def Obligations.ResetLeavesTheStatedValues : Prop :=
  (∀ (s : State) (rest : List Input), s.inputs = .reset :: rest →
    ∃ t, step s = .next t ∧ t.status = 0x00 ∧ t.opLatch = 0 ∧ t.dlen = 0 ∧ t.klen = 0 ∧ t.olen = 0 ∧
      t.dout = Vector.replicate 16 0 ∧ t.rnd = 0 ∧ t.inputs = rest ∧ t.replies = s.replies ∧
      (∀ rest', rest = .coreTurn :: rest' → step t = .next { t with inputs := rest' }) ∧
      ∀ w rest', rest = .access (.write 0x00 w) :: rest' →
        step t = .next { t with inputs := rest', opLatch := w, status := 0x01 }) ∧
  (∀ s t : State, step s = .next t → t.status = 0x00 → s.status ≠ 0x00 →
    ∃ rest, s.inputs = .reset :: rest) ∧
  State.reset.status = 0x00 ∧ State.reset.opLatch = 0 ∧ State.reset.dlen = 0 ∧ State.reset.klen = 0 ∧
    State.reset.olen = 0 ∧ State.reset.dout = Vector.replicate 16 0 ∧ State.reset.rnd = 0

/-- A facade command issued after any reset, before any string is written, ends with
`InvalidArgument(data)` and touches nothing else (R36, which the spec marks as its own inference,
"[derived: from rule R35 ...]"). It is said of the state right after a reset with no reply recorded yet.
That the command ends in the one CORE step after its acceptance is the model's choice (DESIGN CHOICE,
log entry 6). -/
def Obligations.FacadeCommandAfterResetIsInvalidArgument : Prop :=
  ∀ (n : Nat) (w : Word) (rest : List Input), w = 0x00000008 ∨ w = 0x00000009 →
    runSteps 2 { State.resetAt n with inputs := .access (.write 0x00 w) :: .coreTurn :: rest } =
      .next { State.resetAt n with inputs := rest, opLatch := w, status := 0x17 }

/-- Every reset state meets the invariant. -/
def Obligations.ResetMeetsTheInvariant : Prop :=
  State.reset.Inv ∧ ∀ n, (State.resetAt n).Inv

/-- R24, R26, R28, R30, R79: every step keeps the invariant: `STATUS` one of its ten values, `RND` 0 or
32, the output buffer an encoding followed by zeros, and `IDLE` only before the first command. -/
def Obligations.EveryStepKeepsTheInvariant : Prop :=
  ∀ s t : State, s.Inv → step s = .next t → t.Inv

/-! ## The meanings of the commands -/

/-- R97: `DECKEY`, its encoding, its result and its two errors, on the key string `KIN[0 .. KLEN-1]`. -/
def Obligations.DecKeyWritesTheDecodedKey : Prop :=
  ∀ s : State, encode .decKey = 0x00000001 ∧
    (64 < s.klen.toNat → exec .decKey s = .next { s with status := 0x2F }) ∧
    (s.klen.toNat ≤ 64 →
      (∀ w, decodeKeyWords (s.kin.toList.take s.klen.toNat) = .ok w →
        exec .decKey s = .next { s with k := w, status := 0x02 }) ∧
      ((∀ w, decodeKeyWords (s.kin.toList.take s.klen.toNat) ≠ .ok w) →
        exec .decKey s = .next { s with status := 0x2B }))

/-- R98: `DECBLK`, its encoding, its result and its two errors, on the data string `DIN[0 .. DLEN-1]`. -/
def Obligations.DecBlkWritesTheDecodedHalves : Prop :=
  ∀ s : State, encode .decBlk = 0x00000002 ∧
    (64 < s.dlen.toNat → exec .decBlk s = .next { s with status := 0x1F }) ∧
    (s.dlen.toNat ≤ 64 →
      (∀ l r, decodeBlock (s.din.toList.take s.dlen.toNat) = .ok (l, r) →
        exec .decBlk s = .next { s with l := l, r := r, status := 0x02 }) ∧
      ((∀ b, decodeBlock (s.din.toList.take s.dlen.toNat) ≠ .ok b) →
        exec .decBlk s = .next { s with status := 0x1B }))

/-- R99: `ENCBLK` always completes; `OLEN` is the length of the encoding of (`L`, `R`), and `DOUT` holds
its characters and then zeros. -/
def Obligations.EncBlkWritesTheOutputString : Prop :=
  ∀ s : State, encode .encBlk = 0x00000003 ∧
    ∃ t, exec .encBlk s = .next t ∧ t = { s with olen := t.olen, dout := t.dout, status := 0x02 } ∧
      t.olen.toNat = (encodeBlock s.l s.r).length ∧
      ∀ j : Fin 16, t.dout[j] =
        if h : j.val < (encodeBlock s.l s.r).length then (encodeBlock s.l s.r)[j.val] else 0

/-- R133: `ENCR` always completes; the halves are those of `Encrypt`, `SUM` ends as `0xC6EF3720`, `RND`
as 32, and nothing else changes. -/
def Obligations.EncRRunsTheEncryptRounds : Prop :=
  ∀ s : State, encode .encR = 0x00000004 ∧
    exec .encR s = .next { s with
      l := (encryptBlock s.k s.l s.r).1, r := (encryptBlock s.k s.l s.r).2,
      sum := 0xC6EF3720, rnd := 32, status := 0x02 }

/-- R134: `DECR` always completes; the halves are those of `Decrypt`, `SUM` ends as 0, `RND` as 32, and
nothing else changes; and after `ENCR` it restores the halves. -/
def Obligations.DecRRunsTheDecryptRounds : Prop :=
  ∀ s : State, encode .decR = 0x00000005 ∧
    exec .decR s = .next { s with
      l := (decryptBlock s.k s.l s.r).1, r := (decryptBlock s.k s.l s.r).2,
      sum := 0, rnd := 32, status := 0x02 } ∧
    ∃ t, exec .encR s = .next t ∧
      exec .decR t = .next { s with sum := 0, rnd := 32, status := 0x02 }

/-- R152: `ENCRYPT` on strings that pass all tests: everything it commits, and that nothing else
changes. -/
def Obligations.EncryptCommitsTheWholeCall : Prop :=
  ∀ (s : State) (w : Key) (l0 r0 l1 r1 : Word) (o : Str),
    s.dlen.toNat ≤ 64 → s.klen.toNat ≤ 64 →
    decodeKeyWords (s.kin.toList.take s.klen.toNat) = .ok w →
    decodeBlock (s.din.toList.take s.dlen.toNat) = .ok (l0, r0) →
    encryptBlock w l0 r0 = (l1, r1) → encodeBlock l1 r1 = o →
    ∃ t, exec .encrypt s = .next t ∧
      t = { s with k := w, l := l1, r := r1, sum := 0xC6EF3720, rnd := 32, olen := t.olen,
                   dout := t.dout, status := 0x02 } ∧
      t.olen.toNat = o.length ∧
      ∀ j : Fin 16, t.dout[j] = if h : j.val < o.length then o[j.val] else 0

/-- R153: `DECRYPT` on strings that pass all tests: everything it commits, and that nothing else
changes. -/
def Obligations.DecryptCommitsTheWholeCall : Prop :=
  ∀ (s : State) (w : Key) (l0 r0 l1 r1 : Word) (o : Str),
    s.dlen.toNat ≤ 64 → s.klen.toNat ≤ 64 →
    decodeKeyWords (s.kin.toList.take s.klen.toNat) = .ok w →
    decodeBlock (s.din.toList.take s.dlen.toNat) = .ok (l0, r0) →
    decryptBlock w l0 r0 = (l1, r1) → encodeBlock l1 r1 = o →
    ∃ t, exec .decrypt s = .next t ∧
      t = { s with k := w, l := l1, r := r1, sum := 0, rnd := 32, olen := t.olen,
                   dout := t.dout, status := 0x02 } ∧
      t.olen.toNat = o.length ∧
      ∀ j : Fin 16, t.dout[j] = if h : j.val < o.length then o[j.val] else 0

/-! ## Errors -/

/-- The values of `STATUS` each command can end with: it ends with one of them from every state, and each
of them is reached from some state; an illegal word ends with `0x0F`. This is the matrix T-R178, which
the spec marks as its own inference ("[derived: from ... rules R97 to R99 ...]"). That the illegal word
ends in one CORE step is the model's choice (DESIGN CHOICE, log entry 6), and that the CORE moves when no
input is left is its schedule (DESIGN CHOICE, log entry 3). -/
def Obligations.CommandsEndOnlyInTheirStatuses : Prop :=
  (∀ i : Instr, (∀ s, ∃ t, exec i s = .next t ∧ t.status ∈ outcomes i) ∧
    ∀ v ∈ outcomes i, ∃ s t, exec i s = .next t ∧ t.status = v) ∧
  ∀ (s : State) (rest : List Input), s.busy = true → s.coreNext rest →
    commandWordWf s.opLatch = false → step s = .next { s with inputs := rest, status := 0x0F }

/-- R166: a command that does not complete raises some `E(p)`: `STATUS` takes the value of that error,
and every other register keeps what it held. -/
def Obligations.ErrorEntryChangesOnlyStatus : Prop :=
  ∀ (i : Instr) (s t : State), exec i s = .next t → t.status ≠ 0x02 →
    ∃ e : Raise, t = { s with status := 3 ||| (e.kind.code <<< 2) ||| (e.param.id <<< 4) } ∧
      stateField t.status = 3 ∧ reportedError t.status = some e

/-- R165: which error a command reports when several causes hold, for `ENCRYPT` and `DECRYPT` level by
level, for `DECKEY` and `DECBLK` on the levels of the string they use, for `ENCBLK`, `ENCR` and `DECR`,
which use none, no error, and the illegal word first. That the illegal word ends in one CORE step is the
model's choice (DESIGN CHOICE, log entry 6), and that the CORE moves when no input is left is its
schedule (DESIGN CHOICE, log entry 3). -/
def Obligations.ErrorsAreReportedInFixedOrder : Prop :=
  ∀ s : State,
    let data := s.din.toList.take s.dlen.toNat
    let key := s.kin.toList.take s.klen.toNat
    (∀ rest, s.busy = true → s.coreNext rest → commandWordWf s.opLatch = false →
      step s = .next { s with inputs := rest, status := 0x0F }) ∧
    (∀ i, i = .encrypt ∨ i = .decrypt →
      (64 < s.dlen.toNat → exec i s = .next { s with status := 0x1F }) ∧
      (s.dlen.toNat ≤ 64 →
        (64 < s.klen.toNat → exec i s = .next { s with status := 0x2F }) ∧
        (s.klen.toNat ≤ 64 →
          (isBlank data = true → exec i s = .next { s with status := 0x17 }) ∧
          (isBlank data = false →
            (isBlank key = true → exec i s = .next { s with status := 0x27 }) ∧
            (isBlank key = false →
              ((∀ w, decodeKeyWords key ≠ .ok w) → exec i s = .next { s with status := 0x2B }) ∧
              ((∃ w, decodeKeyWords key = .ok w) → (∀ b, decodeBlock data ≠ .ok b) →
                exec i s = .next { s with status := 0x1B })))))) ∧
    (64 < s.klen.toNat → exec .decKey s = .next { s with status := 0x2F }) ∧
    (s.klen.toNat ≤ 64 → (∀ w, decodeKeyWords key ≠ .ok w) →
      exec .decKey s = .next { s with status := 0x2B }) ∧
    (64 < s.dlen.toNat → exec .decBlk s = .next { s with status := 0x1F }) ∧
    (s.dlen.toNat ≤ 64 → (∀ b, decodeBlock data ≠ .ok b) →
      exec .decBlk s = .next { s with status := 0x1B }) ∧
    (∀ i, i = .encBlk ∨ i = .encR ∨ i = .decR → ∃ t, exec i s = .next t ∧ t.status = 0x02)

/-- R168: `STATUS` keeps `DONE` or `ERROR` until the next write to `CMD` is accepted, which makes it
`BUSY` and then lets the new command decide it; nothing the HOST does besides clears it, neither value
blocks the write, and nothing is restored. A reset (R180) is the one other event that changes it. That
the new command ends in the one CORE step after its acceptance is the model's choice (DESIGN CHOICE, log
entry 6). -/
def Obligations.StatusIsStickyUntilTheNextCommand : Prop :=
  ∀ s : State, stateField s.status = 2 ∨ stateField s.status = 3 →
    (∀ t, step s = .next t → (∀ rest, s.inputs ≠ .reset :: rest) →
      t.status = s.status ∨
        (t.status = 0x01 ∧ ∃ w rest', s.inputs = .access (.write 0x00 w) :: rest')) ∧
    (∀ w rest, s.inputs = .access (.write 0x00 w) :: rest →
      step s = .next { s with inputs := rest, opLatch := w, status := 0x01 }) ∧
    (∀ i rest, s.inputs = .access (.write 0x00 (encode i)) :: .coreTurn :: rest →
      runSteps 2 s = exec i { s with inputs := rest, opLatch := encode i, status := 0x01 })

/-! ## Frames, and what reads what -/

/-- R83, R20: the registers each command may write; all others, the strings and their lengths among them,
keep their values. -/
def Obligations.EachCommandWritesOnlyItsRegisters : Prop :=
  ∀ s t : State,
    (exec .decKey s = .next t → t = { s with k := t.k, status := t.status }) ∧
    (exec .decBlk s = .next t → t = { s with l := t.l, r := t.r, status := t.status }) ∧
    (exec .encBlk s = .next t → t = { s with olen := t.olen, dout := t.dout, status := t.status }) ∧
    (∀ i, i = .encR ∨ i = .decR → exec i s = .next t →
      t = { s with l := t.l, r := t.r, sum := t.sum, rnd := t.rnd, status := t.status }) ∧
    (∀ i, i = .encrypt ∨ i = .decrypt → exec i s = .next t →
      t = { s with k := t.k, l := t.l, r := t.r, sum := t.sum, rnd := t.rnd, olen := t.olen,
                   dout := t.dout, status := t.status })

/-- R29, R34, R83: two states that agree on a command's operands (of a string, only the characters below
its length) give that command the same outcome and the same results, whatever else they hold. -/
def Obligations.CommandsReadOnlyTheirOperands : Prop :=
  ∀ s s' : State,
    let sameData := s.dlen = s'.dlen ∧ ∀ j : Fin 64, j.val < s.dlen.toNat → s.din[j] = s'.din[j]
    let sameKey := s.klen = s'.klen ∧ ∀ j : Fin 64, j.val < s.klen.toNat → s.kin[j] = s'.kin[j]
    (sameKey → ∃ t t', exec .decKey s = .next t ∧ exec .decKey s' = .next t' ∧ t.status = t'.status ∧
      (t.status = 0x02 → t.k = t'.k)) ∧
    (sameData → ∃ t t', exec .decBlk s = .next t ∧ exec .decBlk s' = .next t' ∧ t.status = t'.status ∧
      (t.status = 0x02 → t.l = t'.l ∧ t.r = t'.r)) ∧
    (s.l = s'.l ∧ s.r = s'.r → ∃ t t', exec .encBlk s = .next t ∧ exec .encBlk s' = .next t' ∧
      t.status = t'.status ∧ t.olen = t'.olen ∧ t.dout = t'.dout) ∧
    (∀ i, i = .encR ∨ i = .decR → s.k = s'.k ∧ s.l = s'.l ∧ s.r = s'.r →
      ∃ t t', exec i s = .next t ∧ exec i s' = .next t' ∧ t.status = t'.status ∧
        t.l = t'.l ∧ t.r = t'.r ∧ t.sum = t'.sum ∧ t.rnd = t'.rnd) ∧
    (∀ i, i = .encrypt ∨ i = .decrypt → sameData ∧ sameKey →
      ∃ t t', exec i s = .next t ∧ exec i s' = .next t' ∧ t.status = t'.status ∧
        (t.status = 0x02 → t.k = t'.k ∧ t.l = t'.l ∧ t.r = t'.r ∧ t.sum = t'.sum ∧ t.rnd = t'.rnd ∧
          t.olen = t'.olen ∧ t.dout = t'.dout))

/-- R21, R116: `K` changes only by a HOST write to it while not `BUSY`, by a `DECKEY`, `ENCRYPT` or
`DECRYPT` that completes, or by a reset; so `ENCR`, `DECR` and every failing command leave it. When the
CORE moves is the model's schedule (DESIGN CHOICE, log entries 3 and 6). -/
def Obligations.KeyChangesOnlyByTheseEvents : Prop :=
  ∀ s t : State, step s = .next t → t.k ≠ s.k →
    (s.busy = false ∧ ∃ a v rest, s.inputs = .access (.write a v) :: rest ∧ 0x04 ≤ a.toNat ∧
      a.toNat ≤ 0x07) ∨
    (s.busy = true ∧ t.status = 0x02 ∧ (∃ rest, s.coreNext rest) ∧
      (s.opLatch = 0x00000001 ∨ s.opLatch = 0x00000008 ∨ s.opLatch = 0x00000009)) ∨
    ∃ rest, s.inputs = .reset :: rest

/-- R20, R23, R24, R28, R30: no HOST access, read or write, changes `SUM`, `RND`, `OLEN` or `DOUT`. -/
def Obligations.HostNeverChangesReadOnlyRegisters : Prop :=
  ∀ (s t : State) (x : HostAccess) (rest : List Input), s.inputs = .access x :: rest →
    step s = .next t →
    t.sum = s.sum ∧ t.rnd = s.rnd ∧ t.olen = s.olen ∧ t.dout = s.dout

/-! ## The host register space -/

/-- R51, R52: what a read of each mapped register returns while not `BUSY`, and that it changes no
register. -/
def Obligations.ReadsFollowTheRegisterMap : Prop :=
  ∀ (s : State) (a : RegIndex) (rest : List Input), s.busy = false →
    s.inputs = .access (.read a) :: rest →
    ∃ v : Word, step s = .next { s with inputs := rest, replies := ⟨a, v⟩ :: s.replies } ∧
      (a = 0x01 → v.toNat = s.status.toNat) ∧ (a = 0x02 → v = s.l) ∧ (a = 0x03 → v = s.r) ∧
      (a = 0x04 → v = s.k.k0) ∧ (a = 0x05 → v = s.k.k1) ∧ (a = 0x06 → v = s.k.k2) ∧
      (a = 0x07 → v = s.k.k3) ∧ (a = 0x08 → v = s.sum) ∧ (a = 0x09 → v.toNat = s.rnd.toNat) ∧
      (a = 0x0A → v.toNat = s.dlen.toNat) ∧ (a = 0x0B → v.toNat = s.klen.toNat) ∧
      (a = 0x0C → v.toNat = s.olen.toNat) ∧
      (∀ j : Fin 64, a.toNat = 0x40 + j.val → v.toNat = s.din[j].toNat) ∧
      (∀ j : Fin 64, a.toNat = 0x80 + j.val → v.toNat = s.kin[j].toNat) ∧
      (∀ j : Fin 16, a.toNat = 0xC0 + j.val → v.toNat = s.dout[j].toNat)

/-- R51, R52: what a write to each writable register stores while not `BUSY`, and that it changes nothing
else. -/
def Obligations.WritesFollowTheRegisterMap : Prop :=
  ∀ (s : State) (a : RegIndex) (v : Word) (rest : List Input), s.busy = false →
    s.inputs = .access (.write a v) :: rest →
    (a = 0x02 → step s = .next { s with inputs := rest, l := v }) ∧
    (a = 0x03 → step s = .next { s with inputs := rest, r := v }) ∧
    (a = 0x04 → step s = .next { s with inputs := rest, k := { s.k with k0 := v } }) ∧
    (a = 0x05 → step s = .next { s with inputs := rest, k := { s.k with k1 := v } }) ∧
    (a = 0x06 → step s = .next { s with inputs := rest, k := { s.k with k2 := v } }) ∧
    (a = 0x07 → step s = .next { s with inputs := rest, k := { s.k with k3 := v } }) ∧
    (a = 0x0A → ∃ n, step s = .next { s with inputs := rest, dlen := n } ∧ n.toNat = v.toNat % 256) ∧
    (a = 0x0B → ∃ n, step s = .next { s with inputs := rest, klen := n } ∧ n.toNat = v.toNat % 256) ∧
    (∀ j : Fin 64, a.toNat = 0x40 + j.val → ∃ b, step s = .next { s with inputs := rest, din := b } ∧
      b[j].toNat = v.toNat % 256 ∧ ∀ m : Fin 64, m ≠ j → b[m] = s.din[m]) ∧
    (∀ j : Fin 64, a.toNat = 0x80 + j.val → ∃ b, step s = .next { s with inputs := rest, kin := b } ∧
      b[j].toNat = v.toNat % 256 ∧ ∀ m : Fin 64, m ≠ j → b[m] = s.kin[m])

/-- R53: reads of an unmapped index and of `CMD` return 0 (while not `BUSY`; the values of reads while
`BUSY` are R61's); writes to an unmapped index and to a read-only register are ignored; none changes
`STATUS` or anything else. -/
def Obligations.AccessesThatReachNoRegister : Prop :=
  ∀ (s : State) (a : RegIndex) (rest : List Input),
    let unmapped := (0x0D ≤ a.toNat ∧ a.toNat ≤ 0x3F) ∨ 0xD0 ≤ a.toNat
    let readOnly := a = 0x01 ∨ a = 0x08 ∨ a = 0x09 ∨ a = 0x0C ∨ (0xC0 ≤ a.toNat ∧ a.toNat ≤ 0xCF)
    (unmapped ∨ a = 0x00 → s.busy = false → s.inputs = .access (.read a) :: rest →
      step s = .next { s with inputs := rest, replies := ⟨a, 0⟩ :: s.replies }) ∧
    (∀ v, unmapped ∨ readOnly → s.inputs = .access (.write a v) :: rest →
      step s = .next { s with inputs := rest })

/-- R61: while `BUSY` every write is dropped, a read of `STATUS` returns `0x01`, and a read of any other
index changes no register; of the value it returns nothing is said. -/
def Obligations.BusyDropsEveryWrite : Prop :=
  ∀ (s : State) (a : RegIndex) (rest : List Input), s.Inv → s.busy = true →
    (∀ v, s.inputs = .access (.write a v) :: rest → step s = .next { s with inputs := rest }) ∧
    (s.inputs = .access (.read 0x01) :: rest →
      step s = .next { s with inputs := rest, replies := ⟨0x01, 0x00000001⟩ :: s.replies }) ∧
    (s.inputs = .access (.read a) :: rest → ∃ v d,
      step s = .next { s with inputs := rest, replies := ⟨a, v⟩ :: s.replies, draws := d })

/-- R54: every write to a register other than `CMD` is idempotent; and a read repeated with no step in
between returns the same word both times and changes no register, `BUSY` or not, also where R61 leaves
open which word it is. The counter of free values, which may move while `BUSY`, is the model's own (log
entry 2). -/
def Obligations.AccessesAreIdempotent : Prop :=
  ∀ (s : State) (a : RegIndex),
    (∀ v, a ≠ 0x00 → memWrite a v (memWrite a v s) = memWrite a v s) ∧
    (∀ rest, s.inputs = .access (.read a) :: .access (.read a) :: rest →
      ∃ v d, runSteps 2 s =
        .next { s with inputs := rest, replies := ⟨a, v⟩ :: ⟨a, v⟩ :: s.replies, draws := d }) ∧
    (∀ rest, s.busy = false → s.inputs = .access (.read a) :: .access (.read a) :: rest →
      ∃ v, runSteps 2 s = .next { s with inputs := rest, replies := ⟨a, v⟩ :: ⟨a, v⟩ :: s.replies })

/-! ## The hex codec -/

/-- R74: which of the 256 codes are hex digits, their values, and that `hexchar` gives the lowercase
digit of its value. -/
def Obligations.HexDigitClassesAndValues : Prop :=
  (∀ c : Ch, isHex c = true ↔ (0x30 ≤ c.toNat ∧ c.toNat ≤ 0x39) ∨ (0x41 ≤ c.toNat ∧ c.toNat ≤ 0x46) ∨
    (0x61 ≤ c.toNat ∧ c.toNat ≤ 0x66)) ∧
  (∀ c : Ch, (0x30 ≤ c.toNat ∧ c.toNat ≤ 0x39 → hexVal? c = some (c.toNat - 0x30)) ∧
    (0x41 ≤ c.toNat ∧ c.toNat ≤ 0x46 → hexVal? c = some (c.toNat - 0x41 + 10)) ∧
    (0x61 ≤ c.toNat ∧ c.toNat ≤ 0x66 → hexVal? c = some (c.toNat - 0x61 + 10))) ∧
  ∀ n < 16, (hexChar n).toNat = if n ≤ 9 then 0x30 + n else 0x61 + n - 10

/-- R90: `hexnat` is the base-16 sum, first character most significant, on the strings of hex digits. That it
is none on every other string, where R90 gives it no value and R74 leaves `hexval` undefined, is the
model's (DEDUCED, log entry 12). -/
def Obligations.HexNatIsTheDigitSum : Prop :=
  ∀ s : Str, (allHex s = true ↔ ∀ c ∈ s, isHex c = true) ∧
    (allHex s = true → hexNat? s = some (digitSum s)) ∧ (allHex s = false → hexNat? s = none)

/-- R92: padding makes the length even, puts at most one `0` in front, and leaves the value unchanged.
That a string with a character that is no hex digit has no value, before and after, is the model's
(DEDUCED, log entry 12). -/
def Obligations.PaddingKeepsTheValue : Prop :=
  ∀ s : Str, (padToEvenLength s).length % 2 = 0 ∧
    (s.length % 2 = 0 → padToEvenLength s = s) ∧
    (s.length % 2 = 1 → padToEvenLength s = 0x30 :: s) ∧
    hexNat? (padToEvenLength s) = hexNat? s

/-- R77: a key string is accepted exactly when it is an optional prefix and then 31 or 32 hex digits, and
the four words are then the number the digits spell; every other string is `MalformedInput(key)`. -/
def Obligations.KeyStringFormat : Prop :=
  ∀ s : Str,
    (∀ k, decodeKeyWords s = .ok k ↔ ∃ p d, p ∈ optionalPrefixes ∧ s = p ++ d ∧ allHex d = true ∧
      (d.length = 31 ∨ d.length = 32) ∧ k.value = digitSum d) ∧
    ((∀ k, decodeKeyWords s ≠ .ok k) → decodeKeyWords s = .error ⟨.malformedInput, .key⟩)

/-- R78, R95: a data string is accepted exactly when it is an optional prefix and then one or more hex
digits whose value is below 2^64, and (`L`, `R`) is then that value; every other string is
`MalformedInput(data)`. -/
def Obligations.DataStringFormat : Prop :=
  ∀ s : Str,
    (∀ l r, decodeBlock s = .ok (l, r) ↔ ∃ p d, p ∈ optionalPrefixes ∧ s = p ++ d ∧ allHex d = true ∧
      d ≠ [] ∧ digitSum d < 2 ^ 64 ∧ 2 ^ 32 * l.toNat + r.toNat = digitSum d) ∧
    ((∀ b, decodeBlock s ≠ .ok b) → decodeBlock s = .error ⟨.malformedInput, .data⟩)

/-- The bounded test of R102 (the spec's own inference, "[derived: from rules R90 and R95]") accepts the
same strings with the same value: after the leading zeros at most 16 digits remain. -/
def Obligations.BoundedBlockTestIsEquivalent : Prop :=
  ∀ (s : Str) (l r : Word),
    let t := stripHexPrefix s
    let t' := t.dropWhile (· == 0x30)
    decodeBlock s = .ok (l, r) ↔
      1 ≤ t.length ∧ allHex t = true ∧ t'.length ≤ 16 ∧ hexNat? t' = some (2 ^ 32 * l.toNat + r.toNat)

/-- R80: the form of every output string. -/
def Obligations.OutputStringFormat : Prop :=
  ∀ l r : Word, 1 ≤ (encodeBlock l r).length ∧ (encodeBlock l r).length ≤ 16 ∧
    (∀ c ∈ encodeBlock l r, isOutputDigit c = true) ∧
    ((encodeBlock l r).head? = some 0x30 ↔ l = 0 ∧ r = 0) ∧
    (l = 0 ∧ r = 0 → encodeBlock l r = [0x30]) ∧
    digitSum (encodeBlock l r) = 2 ^ 32 * l.toNat + r.toNat ∧
    stripHexPrefix (encodeBlock l r) = encodeBlock l r

/-- The codec laws of R100 (the spec's own inference, "[derived: from rules R91, R95 and R96]"):
decoding the encoding of any block gives the block back; encoding what a data string decodes to gives
the string's canonical form, which is the string itself only when it was canonical. -/
def Obligations.BlockCodecRoundTrip : Prop :=
  (∀ l r : Word, decodeBlock (encodeBlock l r) = .ok (l, r)) ∧
  ∀ (s : Str) (l r : Word), decodeBlock s = .ok (l, r) →
    encodeBlock l r = canonical s ∧ (encodeBlock l r = s ↔ canonical s = s)

/-! ## The block cipher -/

/-- R125: the word operators as numbers and bits. -/
def Obligations.WordArithmeticIsModular : Prop :=
  ∀ (a b : Word) (n : Nat), n ≤ 31 →
    (add32 a b).toNat = (a.toNat + b.toNat) % 2 ^ 32 ∧
    (sub32 a b).toNat = (a.toNat + 2 ^ 32 - b.toNat) % 2 ^ 32 ∧
    (shl32 a n).toNat = (a.toNat * 2 ^ n) % 2 ^ 32 ∧
    (shr32 a n).toNat = a.toNat / 2 ^ n ∧
    ∀ i < 32, (xor32 a b).getLsbD i = (a.getLsbD i != b.getLsbD i)

/-- R127, R128, R130: one round in each direction, with every operator and the order of the updates. -/
def Obligations.RoundFormulas : Prop :=
  ∀ (k : Key) (l r sum : Word),
    (let sum' := sum + 0x9e3779b9
     let l' := l + (((r <<< 4) + k.k0) ^^^ (r + sum') ^^^ ((r >>> 5) + k.k1))
     let r' := r + (((l' <<< 4) + k.k2) ^^^ (l' + sum') ^^^ ((l' >>> 5) + k.k3))
     encRound k ⟨l, r, sum⟩ = ⟨l', r', sum'⟩) ∧
    (let r' := r - (((l <<< 4) + k.k2) ^^^ (l + sum) ^^^ ((l >>> 5) + k.k3))
     let l' := l - (((r' <<< 4) + k.k0) ^^^ (r' + sum) ^^^ ((r' >>> 5) + k.k1))
     decRound k ⟨l, r, sum⟩ = ⟨l', r', sum - 0x9e3779b9⟩)

/-- The sum in closed form (R137, the spec's own inference, "[derived: from rules R126, R128 and
R130]"). Encrypt round `i` uses the sum that `i` rounds leave; decrypt round `j` uses the sum that `j -
1` rounds leave. Neither depends on the data or the key. -/
def Obligations.SumSequenceClosedForm : Prop :=
  ∀ (k : Key) (l r : Word),
    (∀ i, 1 ≤ i → i ≤ 32 →
      (repeatRounds (encRound k) i ⟨l, r, 0⟩).sum.toNat = (0x9e3779b9 * i) % 2 ^ 32) ∧
    (∀ j, 1 ≤ j → j ≤ 32 →
      (repeatRounds (decRound k) (j - 1) ⟨l, r, 0xC6EF3720⟩).sum.toNat =
        (0x9e3779b9 * (33 - j)) % 2 ^ 32)

/-- R135: for every key the two functions undo each other, round by round and over all 32 rounds, and
both are bijections on blocks. The first direction over 32 rounds is the source's law; the others the
spec marks as its own inference ("[derived: from rules R128 and R130]"). -/
def Obligations.DecryptInvertsEncrypt : Prop :=
  ∀ k : Key,
    (∀ x, decRound k (encRound k x) = x) ∧ (∀ x, encRound k (decRound k x) = x) ∧
    (∀ l r, decryptBlock k (encryptBlock k l r).1 (encryptBlock k l r).2 = (l, r)) ∧
    (∀ l r, encryptBlock k (decryptBlock k l r).1 (decryptBlock k l r).2 = (l, r)) ∧
    Function.Bijective (fun b : Word × Word => encryptBlock k b.1 b.2) ∧
    Function.Bijective (fun b : Word × Word => decryptBlock k b.1 b.2)

/-- The equivalent keys of R157 (the spec's own inference, "[derived: from 42_cipher_core.md rule R127
...]"): complementing the top bit of both `K[0]` and `K[1]`, or of both `K[2]` and `K[3]`, leaves every
ciphertext unchanged. -/
def Obligations.EquivalentKeysGiveTheSameCiphertext : Prop :=
  ∀ (k : Key) (l r : Word),
    encryptBlock { k with k0 := k.k0 ^^^ 0x80000000, k1 := k.k1 ^^^ 0x80000000 } l r =
      encryptBlock k l r ∧
    encryptBlock { k with k2 := k.k2 ^^^ 0x80000000, k3 := k.k3 ^^^ 0x80000000 } l r =
      encryptBlock k l r

/-! ## Whole calls -/

/-- R152, R153 against R97 to R99, R133, R134: a facade command that completes leaves exactly the state
that the four primitive commands leave when run one after the other. -/
def Obligations.FacadeCommandEqualsThePrimitiveSequence : Prop :=
  ∀ s t : State, t.status = 0x02 →
    (exec .encrypt s = .next t → ∃ s1 s2 s3, exec .decKey s = .next s1 ∧ exec .decBlk s1 = .next s2 ∧
      exec .encR s2 = .next s3 ∧ exec .encBlk s3 = .next t) ∧
    (exec .decrypt s = .next t → ∃ s1 s2 s3, exec .decKey s = .next s1 ∧ exec .decBlk s1 = .next s2 ∧
      exec .decR s2 = .next s3 ∧ exec .encBlk s3 = .next t)

/-- The round trip of R155 on strings (the spec's own inference there, "[derived: from ... R100 and ...
R135]"), on the function of a whole call: an accepted plaintext encrypts under an accepted key, the
ciphertext decrypts under the same key string, and what comes back is the canonical form of the
plaintext, with the same block value. -/
def Obligations.CallsRoundTripOnStrings : Prop :=
  ∀ (p k : Str) (w : Key) (b : Word × Word), decodeKeyWords k = .ok w → decodeBlock p = .ok b →
    ∃ c p', facade .encrypt p k = .ok c ∧ facade .decrypt c k = .ok p' ∧ decodeBlock p' = .ok b ∧
      p' = canonical p ∧ (p' = p ↔ canonical p = p)

/-- The no-ops of R156 (the spec's own inference, "[derived: from ... rules R91, R94 and R95]"): on
strings that are not blank and have no prefix of their own, a prefix on either or both is a no-op,
success or error alike; and so is the case of the hex letters. -/
def Obligations.PrefixAndLetterCaseAreNoOps : Prop :=
  ∀ (dir : Direction) (p k : Str),
    (stripHexPrefix p = p → stripHexPrefix k = k → isBlank p = false → isBlank k = false →
      ∀ p0 ∈ optionalPrefixes, ∀ k0 ∈ optionalPrefixes,
        facade dir (p0 ++ p) (k0 ++ k) = facade dir p k) ∧
    facade dir (p.map lowerHex) (k.map lowerHex) = facade dir p k

/-- R82, R152, R153: the HOST's `encrypt(p, k)` and `decrypt(c, k)` compute the function of R151. From
every state that is not `BUSY`, whatever its registers and buffers hold, the accesses of the call, with
any number of polls before the CORE's step, end with the function's output in `GETO` or with the error
it raises in `STATUS`. Where the CORE's step falls among the polls is the model's schedule, and that it
is one step the model's choice (DESIGN CHOICE, log entries 3, 6 and 17). -/
def Obligations.HostCallComputesTheFacade : Prop :=
  ∀ (dir : Direction) (p k : Str) (polls : Nat) (rest : List Input) (s : State),
    s.busy = false → stringFits p = true → stringFits k = true →
    s.inputs = callInputs dir p k polls ++ rest →
    ∃ t, runSteps (callInputs dir p k polls).length s = .next t ∧ t.inputs = rest ∧
      callResult t = some (facade dir p k) ∧
      t.replies.head? = some ⟨0x01, t.status.setWidth 32⟩
end

