-- ==== Sys2Proof/Laws/State.lean ====
section
/-! SUPPORT. One lemma per field per named update of `State`, so that no proof unfolds an update. -/

namespace Sys2Proof.Machine

variable (s : State)

/-! ## `raise` -/

@[simp] theorem raise_k (e : Raise) : (raise e s).k = s.k := rfl
@[simp] theorem raise_l (e : Raise) : (raise e s).l = s.l := rfl
@[simp] theorem raise_r (e : Raise) : (raise e s).r = s.r := rfl
@[simp] theorem raise_sum (e : Raise) : (raise e s).sum = s.sum := rfl
@[simp] theorem raise_rnd (e : Raise) : (raise e s).rnd = s.rnd := rfl
@[simp] theorem raise_status (e : Raise) : (raise e s).status = errorStatus e := rfl
@[simp] theorem raise_opLatch (e : Raise) : (raise e s).opLatch = s.opLatch := rfl
@[simp] theorem raise_dlen (e : Raise) : (raise e s).dlen = s.dlen := rfl
@[simp] theorem raise_klen (e : Raise) : (raise e s).klen = s.klen := rfl
@[simp] theorem raise_olen (e : Raise) : (raise e s).olen = s.olen := rfl
@[simp] theorem raise_din (e : Raise) : (raise e s).din = s.din := rfl
@[simp] theorem raise_kin (e : Raise) : (raise e s).kin = s.kin := rfl
@[simp] theorem raise_dout (e : Raise) : (raise e s).dout = s.dout := rfl
@[simp] theorem raise_inputs (e : Raise) : (raise e s).inputs = s.inputs := rfl
@[simp] theorem raise_replies (e : Raise) : (raise e s).replies = s.replies := rfl
@[simp] theorem raise_draws (e : Raise) : (raise e s).draws = s.draws := rfl

/-! ## `acceptCommand` -/

@[simp] theorem acceptCommand_k (w : Word) : (acceptCommand w s).k = s.k := rfl
@[simp] theorem acceptCommand_l (w : Word) : (acceptCommand w s).l = s.l := rfl
@[simp] theorem acceptCommand_r (w : Word) : (acceptCommand w s).r = s.r := rfl
@[simp] theorem acceptCommand_sum (w : Word) : (acceptCommand w s).sum = s.sum := rfl
@[simp] theorem acceptCommand_rnd (w : Word) : (acceptCommand w s).rnd = s.rnd := rfl
@[simp] theorem acceptCommand_status (w : Word) : (acceptCommand w s).status = statusBusy := rfl
@[simp] theorem acceptCommand_opLatch (w : Word) : (acceptCommand w s).opLatch = w := rfl
@[simp] theorem acceptCommand_dlen (w : Word) : (acceptCommand w s).dlen = s.dlen := rfl
@[simp] theorem acceptCommand_klen (w : Word) : (acceptCommand w s).klen = s.klen := rfl
@[simp] theorem acceptCommand_olen (w : Word) : (acceptCommand w s).olen = s.olen := rfl
@[simp] theorem acceptCommand_din (w : Word) : (acceptCommand w s).din = s.din := rfl
@[simp] theorem acceptCommand_kin (w : Word) : (acceptCommand w s).kin = s.kin := rfl
@[simp] theorem acceptCommand_dout (w : Word) : (acceptCommand w s).dout = s.dout := rfl
@[simp] theorem acceptCommand_inputs (w : Word) : (acceptCommand w s).inputs = s.inputs := rfl
@[simp] theorem acceptCommand_replies (w : Word) : (acceptCommand w s).replies = s.replies := rfl
@[simp] theorem acceptCommand_draws (w : Word) : (acceptCommand w s).draws = s.draws := rfl

/-! ## `complete` -/

@[simp] theorem complete_k : (complete s).k = s.k := rfl
@[simp] theorem complete_l : (complete s).l = s.l := rfl
@[simp] theorem complete_r : (complete s).r = s.r := rfl
@[simp] theorem complete_sum : (complete s).sum = s.sum := rfl
@[simp] theorem complete_rnd : (complete s).rnd = s.rnd := rfl
@[simp] theorem complete_status : (complete s).status = statusDone := rfl
@[simp] theorem complete_opLatch : (complete s).opLatch = s.opLatch := rfl
@[simp] theorem complete_dlen : (complete s).dlen = s.dlen := rfl
@[simp] theorem complete_klen : (complete s).klen = s.klen := rfl
@[simp] theorem complete_olen : (complete s).olen = s.olen := rfl
@[simp] theorem complete_din : (complete s).din = s.din := rfl
@[simp] theorem complete_kin : (complete s).kin = s.kin := rfl
@[simp] theorem complete_dout : (complete s).dout = s.dout := rfl
@[simp] theorem complete_inputs : (complete s).inputs = s.inputs := rfl
@[simp] theorem complete_replies : (complete s).replies = s.replies := rfl
@[simp] theorem complete_draws : (complete s).draws = s.draws := rfl

/-! ## `setKey` -/

@[simp] theorem setKey_k (w : Key) : (setKey w s).k = w := rfl
@[simp] theorem setKey_l (w : Key) : (setKey w s).l = s.l := rfl
@[simp] theorem setKey_r (w : Key) : (setKey w s).r = s.r := rfl
@[simp] theorem setKey_sum (w : Key) : (setKey w s).sum = s.sum := rfl
@[simp] theorem setKey_rnd (w : Key) : (setKey w s).rnd = s.rnd := rfl
@[simp] theorem setKey_status (w : Key) : (setKey w s).status = s.status := rfl
@[simp] theorem setKey_opLatch (w : Key) : (setKey w s).opLatch = s.opLatch := rfl
@[simp] theorem setKey_dlen (w : Key) : (setKey w s).dlen = s.dlen := rfl
@[simp] theorem setKey_klen (w : Key) : (setKey w s).klen = s.klen := rfl
@[simp] theorem setKey_olen (w : Key) : (setKey w s).olen = s.olen := rfl
@[simp] theorem setKey_din (w : Key) : (setKey w s).din = s.din := rfl
@[simp] theorem setKey_kin (w : Key) : (setKey w s).kin = s.kin := rfl
@[simp] theorem setKey_dout (w : Key) : (setKey w s).dout = s.dout := rfl
@[simp] theorem setKey_inputs (w : Key) : (setKey w s).inputs = s.inputs := rfl
@[simp] theorem setKey_replies (w : Key) : (setKey w s).replies = s.replies := rfl
@[simp] theorem setKey_draws (w : Key) : (setKey w s).draws = s.draws := rfl

/-! ## `setBlock` -/

@[simp] theorem setBlock_k (a b : Word) : (setBlock a b s).k = s.k := rfl
@[simp] theorem setBlock_l (a b : Word) : (setBlock a b s).l = a := rfl
@[simp] theorem setBlock_r (a b : Word) : (setBlock a b s).r = b := rfl
@[simp] theorem setBlock_sum (a b : Word) : (setBlock a b s).sum = s.sum := rfl
@[simp] theorem setBlock_rnd (a b : Word) : (setBlock a b s).rnd = s.rnd := rfl
@[simp] theorem setBlock_status (a b : Word) : (setBlock a b s).status = s.status := rfl
@[simp] theorem setBlock_opLatch (a b : Word) : (setBlock a b s).opLatch = s.opLatch := rfl
@[simp] theorem setBlock_dlen (a b : Word) : (setBlock a b s).dlen = s.dlen := rfl
@[simp] theorem setBlock_klen (a b : Word) : (setBlock a b s).klen = s.klen := rfl
@[simp] theorem setBlock_olen (a b : Word) : (setBlock a b s).olen = s.olen := rfl
@[simp] theorem setBlock_din (a b : Word) : (setBlock a b s).din = s.din := rfl
@[simp] theorem setBlock_kin (a b : Word) : (setBlock a b s).kin = s.kin := rfl
@[simp] theorem setBlock_dout (a b : Word) : (setBlock a b s).dout = s.dout := rfl
@[simp] theorem setBlock_inputs (a b : Word) : (setBlock a b s).inputs = s.inputs := rfl
@[simp] theorem setBlock_replies (a b : Word) : (setBlock a b s).replies = s.replies := rfl
@[simp] theorem setBlock_draws (a b : Word) : (setBlock a b s).draws = s.draws := rfl

/-! ## `setCounters` -/

@[simp] theorem setCounters_k (a : Word) (n : Nat) : (setCounters a n s).k = s.k := rfl
@[simp] theorem setCounters_l (a : Word) (n : Nat) : (setCounters a n s).l = s.l := rfl
@[simp] theorem setCounters_r (a : Word) (n : Nat) : (setCounters a n s).r = s.r := rfl
@[simp] theorem setCounters_sum (a : Word) (n : Nat) : (setCounters a n s).sum = a := rfl
@[simp] theorem setCounters_rnd (a : Word) (n : Nat) : (setCounters a n s).rnd = BitVec.ofNat 6 n := rfl
@[simp] theorem setCounters_status (a : Word) (n : Nat) : (setCounters a n s).status = s.status := rfl
@[simp] theorem setCounters_opLatch (a : Word) (n : Nat) : (setCounters a n s).opLatch = s.opLatch := rfl
@[simp] theorem setCounters_dlen (a : Word) (n : Nat) : (setCounters a n s).dlen = s.dlen := rfl
@[simp] theorem setCounters_klen (a : Word) (n : Nat) : (setCounters a n s).klen = s.klen := rfl
@[simp] theorem setCounters_olen (a : Word) (n : Nat) : (setCounters a n s).olen = s.olen := rfl
@[simp] theorem setCounters_din (a : Word) (n : Nat) : (setCounters a n s).din = s.din := rfl
@[simp] theorem setCounters_kin (a : Word) (n : Nat) : (setCounters a n s).kin = s.kin := rfl
@[simp] theorem setCounters_dout (a : Word) (n : Nat) : (setCounters a n s).dout = s.dout := rfl
@[simp] theorem setCounters_inputs (a : Word) (n : Nat) : (setCounters a n s).inputs = s.inputs := rfl
@[simp] theorem setCounters_replies (a : Word) (n : Nat) : (setCounters a n s).replies = s.replies := rfl
@[simp] theorem setCounters_draws (a : Word) (n : Nat) : (setCounters a n s).draws = s.draws := rfl

/-! ## `setOutput` -/

@[simp] theorem setOutput_k (o : Str) : (setOutput o s).k = s.k := rfl
@[simp] theorem setOutput_l (o : Str) : (setOutput o s).l = s.l := rfl
@[simp] theorem setOutput_r (o : Str) : (setOutput o s).r = s.r := rfl
@[simp] theorem setOutput_sum (o : Str) : (setOutput o s).sum = s.sum := rfl
@[simp] theorem setOutput_rnd (o : Str) : (setOutput o s).rnd = s.rnd := rfl
@[simp] theorem setOutput_status (o : Str) : (setOutput o s).status = s.status := rfl
@[simp] theorem setOutput_opLatch (o : Str) : (setOutput o s).opLatch = s.opLatch := rfl
@[simp] theorem setOutput_dlen (o : Str) : (setOutput o s).dlen = s.dlen := rfl
@[simp] theorem setOutput_klen (o : Str) : (setOutput o s).klen = s.klen := rfl
@[simp] theorem setOutput_olen (o : Str) : (setOutput o s).olen = BitVec.ofNat 5 o.length := rfl
@[simp] theorem setOutput_din (o : Str) : (setOutput o s).din = s.din := rfl
@[simp] theorem setOutput_kin (o : Str) : (setOutput o s).kin = s.kin := rfl
@[simp] theorem setOutput_dout (o : Str) : (setOutput o s).dout = outputBuffer o := rfl
@[simp] theorem setOutput_inputs (o : Str) : (setOutput o s).inputs = s.inputs := rfl
@[simp] theorem setOutput_replies (o : Str) : (setOutput o s).replies = s.replies := rfl
@[simp] theorem setOutput_draws (o : Str) : (setOutput o s).draws = s.draws := rfl

/-! ## `setRounds` -/

@[simp] theorem setRounds_k (x : RoundState) : (setRounds x s).k = s.k := rfl
@[simp] theorem setRounds_l (x : RoundState) : (setRounds x s).l = x.l := rfl
@[simp] theorem setRounds_r (x : RoundState) : (setRounds x s).r = x.r := rfl
@[simp] theorem setRounds_sum (x : RoundState) : (setRounds x s).sum = x.sum := rfl
@[simp] theorem setRounds_rnd (x : RoundState) : (setRounds x s).rnd = BitVec.ofNat 6 Config.ROUNDS := rfl
@[simp] theorem setRounds_status (x : RoundState) : (setRounds x s).status = s.status := rfl
@[simp] theorem setRounds_opLatch (x : RoundState) : (setRounds x s).opLatch = s.opLatch := rfl
@[simp] theorem setRounds_dlen (x : RoundState) : (setRounds x s).dlen = s.dlen := rfl
@[simp] theorem setRounds_klen (x : RoundState) : (setRounds x s).klen = s.klen := rfl
@[simp] theorem setRounds_olen (x : RoundState) : (setRounds x s).olen = s.olen := rfl
@[simp] theorem setRounds_din (x : RoundState) : (setRounds x s).din = s.din := rfl
@[simp] theorem setRounds_kin (x : RoundState) : (setRounds x s).kin = s.kin := rfl
@[simp] theorem setRounds_dout (x : RoundState) : (setRounds x s).dout = s.dout := rfl
@[simp] theorem setRounds_inputs (x : RoundState) : (setRounds x s).inputs = s.inputs := rfl
@[simp] theorem setRounds_replies (x : RoundState) : (setRounds x s).replies = s.replies := rfl
@[simp] theorem setRounds_draws (x : RoundState) : (setRounds x s).draws = s.draws := rfl

/-! ## `setFacade` -/

@[simp] theorem setFacade_k (d : Direction) (x : FacadeResult) : (setFacade d x s).k = x.k := rfl
@[simp] theorem setFacade_l (d : Direction) (x : FacadeResult) : (setFacade d x s).l = x.l := rfl
@[simp] theorem setFacade_r (d : Direction) (x : FacadeResult) : (setFacade d x s).r = x.r := rfl
@[simp] theorem setFacade_sum (d : Direction) (x : FacadeResult) : (setFacade d x s).sum = d.finalSum := rfl
@[simp] theorem setFacade_rnd (d : Direction) (x : FacadeResult) : (setFacade d x s).rnd = BitVec.ofNat 6 Config.ROUNDS := rfl
@[simp] theorem setFacade_status (d : Direction) (x : FacadeResult) : (setFacade d x s).status = s.status := rfl
@[simp] theorem setFacade_opLatch (d : Direction) (x : FacadeResult) : (setFacade d x s).opLatch = s.opLatch := rfl
@[simp] theorem setFacade_dlen (d : Direction) (x : FacadeResult) : (setFacade d x s).dlen = s.dlen := rfl
@[simp] theorem setFacade_klen (d : Direction) (x : FacadeResult) : (setFacade d x s).klen = s.klen := rfl
@[simp] theorem setFacade_olen (d : Direction) (x : FacadeResult) : (setFacade d x s).olen = BitVec.ofNat 5 (encodeBlock x.l x.r).length := rfl
@[simp] theorem setFacade_din (d : Direction) (x : FacadeResult) : (setFacade d x s).din = s.din := rfl
@[simp] theorem setFacade_kin (d : Direction) (x : FacadeResult) : (setFacade d x s).kin = s.kin := rfl
@[simp] theorem setFacade_dout (d : Direction) (x : FacadeResult) : (setFacade d x s).dout = outputBuffer (encodeBlock x.l x.r) := rfl
@[simp] theorem setFacade_inputs (d : Direction) (x : FacadeResult) : (setFacade d x s).inputs = s.inputs := rfl
@[simp] theorem setFacade_replies (d : Direction) (x : FacadeResult) : (setFacade d x s).replies = s.replies := rfl
@[simp] theorem setFacade_draws (d : Direction) (x : FacadeResult) : (setFacade d x s).draws = s.draws := rfl

/-! ## `loadCommand` -/

@[simp] theorem loadCommand_k (w : Word) : (loadCommand w s).k = s.k := rfl
@[simp] theorem loadCommand_l (w : Word) : (loadCommand w s).l = s.l := rfl
@[simp] theorem loadCommand_r (w : Word) : (loadCommand w s).r = s.r := rfl
@[simp] theorem loadCommand_sum (w : Word) : (loadCommand w s).sum = s.sum := rfl
@[simp] theorem loadCommand_rnd (w : Word) : (loadCommand w s).rnd = s.rnd := rfl
@[simp] theorem loadCommand_status (w : Word) : (loadCommand w s).status = statusBusy := rfl
@[simp] theorem loadCommand_opLatch (w : Word) : (loadCommand w s).opLatch = w := rfl
@[simp] theorem loadCommand_dlen (w : Word) : (loadCommand w s).dlen = s.dlen := rfl
@[simp] theorem loadCommand_klen (w : Word) : (loadCommand w s).klen = s.klen := rfl
@[simp] theorem loadCommand_olen (w : Word) : (loadCommand w s).olen = s.olen := rfl
@[simp] theorem loadCommand_din (w : Word) : (loadCommand w s).din = s.din := rfl
@[simp] theorem loadCommand_kin (w : Word) : (loadCommand w s).kin = s.kin := rfl
@[simp] theorem loadCommand_dout (w : Word) : (loadCommand w s).dout = s.dout := rfl
@[simp] theorem loadCommand_inputs (w : Word) : (loadCommand w s).inputs = .coreTurn :: s.inputs := rfl
@[simp] theorem loadCommand_replies (w : Word) : (loadCommand w s).replies = s.replies := rfl
@[simp] theorem loadCommand_draws (w : Word) : (loadCommand w s).draws = s.draws := rfl

/-! ## The reset event -/

@[simp] theorem applyReset_inputs : (applyReset s).inputs = s.inputs := rfl
@[simp] theorem applyReset_replies : (applyReset s).replies = s.replies := rfl
@[simp] theorem applyReset_draws : (applyReset s).draws = s.draws + 1 := rfl
@[simp] theorem applyReset_status : (applyReset s).status = 0 := rfl
@[simp] theorem applyReset_opLatch : (applyReset s).opLatch = 0 := rfl
@[simp] theorem applyReset_rnd : (applyReset s).rnd = 0 := rfl
@[simp] theorem applyReset_dlen : (applyReset s).dlen = 0 := rfl
@[simp] theorem applyReset_klen : (applyReset s).klen = 0 := rfl
@[simp] theorem applyReset_olen : (applyReset s).olen = 0 := rfl
@[simp] theorem applyReset_dout : (applyReset s).dout = Vector.replicate 16 0 := rfl

end Sys2Proof.Machine
end

