-- ==== Sys2Proof/Laws/Ops.lean ====
section
/-! SUPPORT. What the shared operations of Machine/Flags.lean, Operands.lean and Ops.lean can do, once for
all callers: ending a command, error values, the strings a command reads, the output buffer. -/

namespace Sys2Proof.Machine

/-! ## Ending a command -/

@[simp] theorem finish_ok {α : Type} (a : α) (c : α → State → State) (s : State) :
    finish (.ok a) c s = .next (complete (c a s)) := rfl

@[simp] theorem finish_error {α : Type} (e : Raise) (c : α → State → State) (s : State) :
    finish (.error e) c s = .next (raise e s) := rfl

/-- Everything the end of a command can do: commit all results, or report one error. -/
theorem finish_cases {α : Type} {x : Except Raise α} {c : α → State → State} {s t : State}
    (h : finish x c s = .next t) :
    (∃ a, x = .ok a ∧ t = complete (c a s)) ∨ (∃ e, x = .error e ∧ t = raise e s) := by
  cases x with
  | ok a => exact .inl ⟨a, rfl, by simpa using h.symm⟩
  | error e => exact .inr ⟨e, rfl, by simpa using h.symm⟩

theorem finish_next {α : Type} (x : Except Raise α) (c : α → State → State) (s : State) :
    ∃ t, finish x c s = .next t := by
  cases x <;> exact ⟨_, rfl⟩

/-! ## Status values -/

@[simp] theorem stateField_errorStatus (e : Raise) : stateField (errorStatus e) = 3 := by
  obtain ⟨k, p⟩ := e; cases k <;> cases p <;> rfl

theorem errorStatus_ne_done (e : Raise) : errorStatus e ≠ statusDone := by
  obtain ⟨k, p⟩ := e; cases k <;> cases p <;> decide

theorem errorStatus_ne_idle (e : Raise) : errorStatus e ≠ statusIdle := by
  obtain ⟨k, p⟩ := e; cases k <;> cases p <;> decide

@[simp] theorem raise_busy (e : Raise) (s : State) : (raise e s).busy = false := by
  simp [State.busy]

@[simp] theorem complete_busy (s : State) : (complete s).busy = false := rfl

@[simp] theorem acceptCommand_busy (w : Word) (s : State) : (acceptCommand w s).busy = true := rfl

/-- Among the ten legal values only `0x01` is `BUSY`. -/
theorem State.Inv.status_of_busy {s : State} (h : s.Inv) (hb : s.busy = true) : s.status = statusBusy := by
  have hl := h.status_legal
  simp only [State.busy] at hb
  revert hb hl
  generalize s.status = b
  revert b; decide

/-- The invariant reads only five of the fields. -/
theorem State.Inv.congr {s t : State} (h : s.Inv) (h1 : t.status = s.status) (h2 : t.rnd = s.rnd)
    (h3 : t.olen = s.olen) (h4 : t.dout = s.dout) (h5 : t.opLatch = s.opLatch) : t.Inv := by
  refine ⟨h1 ▸ h.status_legal, h2 ▸ h.rnd_legal, ?_, ?_⟩
  · rw [h3, h4]; exact h.output_legal
  · rw [h1, h2, h3, h4, h5]; exact h.idle_fresh

/-! ## The strings of the buffers -/

theorem stringOperand_ok {b : Vector Ch 64} {n : BitVec 8} {p : Param} (h : n.toNat ≤ 64) :
    stringOperand b n p = .ok (b.toList.take n.toNat) := by
  simp [stringOperand, Config.CAP, Nat.not_lt.mpr h]

theorem stringOperand_error {b : Vector Ch 64} {n : BitVec 8} {p : Param} (h : 64 < n.toNat) :
    stringOperand b n p = .error ⟨.protocolError, p⟩ := by
  simp [stringOperand, Config.CAP, h]

/-- Everything reading a string can do. -/
theorem stringOperand_cases (b : Vector Ch 64) (n : BitVec 8) (p : Param) :
    (64 < n.toNat ∧ stringOperand b n p = .error ⟨.protocolError, p⟩) ∨
    (n.toNat ≤ 64 ∧ stringOperand b n p = .ok (b.toList.take n.toNat)) := by
  rcases Nat.lt_or_ge 64 n.toNat with h | h
  · exact .inl ⟨h, stringOperand_error h⟩
  · exact .inr ⟨h, stringOperand_ok h⟩

/-- Two buffers that agree below the length hold the same string. -/
theorem take_congr {a b : Vector Ch 64} {n : Nat} (h : ∀ j : Fin 64, j.val < n → a[j] = b[j]) :
    a.toList.take n = b.toList.take n := by
  apply List.ext_getElem
  · simp
  · intro i h1 _
    simp at h1
    simpa using h ⟨i, h1.2⟩ h1.1

theorem stringOperand_congr {a b : Vector Ch 64} {n m : BitVec 8} {p : Param}
    (h : n = m ∧ ∀ j : Fin 64, j.val < n.toNat → a[j] = b[j]) :
    stringOperand a n p = stringOperand b m p := by
  obtain ⟨rfl, h⟩ := h
  rw [stringOperand, stringOperand, take_congr h]

/-- Writing entry `i` extends the string of length `i` by one character. -/
theorem take_set {v : Vector Ch 64} {i : Nat} {c : Ch} (hi : i < 64) :
    (v.set i c).toList.take (i + 1) = v.toList.take i ++ [c] := by
  apply List.ext_getElem
  · simp; omega
  · intro j h1 h2
    simp at h1
    rw [List.getElem_append]
    split
    · next h => simp at h; simp [Vector.getElem_set]; omega
    · next h =>
      simp at h
      have : j = i := by omega
      subst this; simp

/-! ## The output buffer -/

theorem outputBuffer_get (o : Str) (j : Fin 16) :
    (outputBuffer o)[j] = if h : j.val < o.length then o[j.val] else 0 := by
  simp [outputBuffer, List.getD_eq_getElem?_getD]
  split <;> simp_all

theorem olen_toNat {o : Str} (h : o.length ≤ 16) : (BitVec.ofNat 5 o.length).toNat = o.length := by
  simp; omega

end Sys2Proof.Machine
end

