-- ==== Sys2Proof/Laws/BlockCipher.lean ====
section
/-! SUPPORT. The small laws of the rounds: repeating a round, the sum after some rounds, the top bit. -/

namespace Sys2Proof.Machine

theorem repeatRounds_succ (f : RoundState → RoundState) (n : Nat) (x : RoundState) :
    repeatRounds f (n + 1) x = f (repeatRounds f n x) := by
  induction n generalizing x with
  | zero => rfl
  | succ n ih => rw [repeatRounds, ih (f x)]; rfl

/-- If `g` undoes one round of `f`, then `n` rounds of `g` undo `n` rounds of `f`. -/
theorem repeatRounds_undo {f g : RoundState → RoundState} (h : ∀ x, g (f x) = x) (n : Nat)
    (x : RoundState) : repeatRounds g n (repeatRounds f n x) = x := by
  induction n generalizing x with
  | zero => rfl
  | succ n ih => rw [repeatRounds_succ f, repeatRounds, h, ih]

theorem encRound_sum (k : Key) (n : Nat) (x : RoundState) :
    (repeatRounds (encRound k) n x).sum = x.sum + BitVec.ofNat 32 n * Config.DELTA := by
  induction n with
  | zero => simp [repeatRounds]
  | succ n ih =>
    rw [repeatRounds_succ]
    show (repeatRounds (encRound k) n x).sum + Config.DELTA = _
    rw [ih, BitVec.ofNat_add, BitVec.add_mul]; simp [BitVec.add_assoc]

theorem decRound_sum (k : Key) (n : Nat) (x : RoundState) :
    (repeatRounds (decRound k) n x).sum = x.sum - BitVec.ofNat 32 n * Config.DELTA := by
  induction n with
  | zero => simp [repeatRounds]
  | succ n ih =>
    rw [repeatRounds_succ]
    show (repeatRounds (decRound k) n x).sum - Config.DELTA = _
    rw [ih, BitVec.ofNat_add, BitVec.add_mul]
    simp [BitVec.sub_eq_add_neg, BitVec.add_assoc]
    exact BitVec.add_comm _ _

theorem encryptRounds_sum (k : Key) (l r : Word) : (encryptRounds k l r).sum = Config.DSUM0 := by
  rw [encryptRounds, encRound_sum]
  show 0 + BitVec.ofNat 32 Config.ROUNDS * Config.DELTA = Config.DSUM0
  decide

theorem decryptRounds_sum (k : Key) (l r : Word) : (decryptRounds k l r).sum = 0 := by
  rw [decryptRounds, decRound_sum]
  show Config.DSUM0 - BitVec.ofNat 32 Config.ROUNDS * Config.DELTA = 0
  decide

/-- Complementing the top bit is adding 2^31. -/
theorem xor_top_bit (c : Word) : c ^^^ 0x80000000#32 = c + 0x80000000#32 := by
  apply BitVec.eq_of_getLsbD_eq
  intro i hi
  rw [BitVec.getLsbD_add hi]
  have hc : BitVec.carry i c 0x80000000#32 false = false := by
    have h1 : (2147483648 : Nat) % 2 ^ i = 0 :=
      Nat.mod_eq_zero_of_dvd (pow_dvd_pow 2 (by omega : i ≤ 31))
    have h2 : c.toNat % 2 ^ i < 2 ^ i := Nat.mod_lt _ (by positivity)
    simp [BitVec.carry, h1, h2]
  rw [hc]; simp

end Sys2Proof.Machine
end

