-- ==== Sys2Proof/Laws/HexCodec.lean ====
section
/-! SUPPORT. The small laws of the hex codec: base-16 reading as a digit sum, the optional hex mark in front of
a string, padding, the four chunks of a key, the digits of an output string. -/

namespace Sys2Proof.Machine

/-! ## What the decoders can answer -/

theorem decodeKeyWords_cases (s : Str) :
    (∃ w, decodeKeyWords s = .ok w) ∨ decodeKeyWords s = .error ⟨.malformedInput, .key⟩ := by
  unfold decodeKeyWords
  dsimp only
  split
  · exact .inr rfl
  · split
    · exact .inl ⟨_, rfl⟩
    · exact .inr rfl

theorem decodeBlock_cases (s : Str) :
    (∃ b, decodeBlock s = .ok b) ∨ decodeBlock s = .error ⟨.malformedInput, .data⟩ := by
  unfold decodeBlock
  dsimp only
  split
  · exact .inr rfl
  · split
    · exact .inr rfl
    · split
      · exact .inr rfl
      · exact .inl ⟨_, rfl⟩

/-! ## Digits -/

theorem isWhitespace_of_isHex (c : Ch) (h : isHex c = true) : isWhitespace c = false := by
  revert c; decide

theorem hexVal_lt {c : Ch} {d : Nat} (h : hexVal? c = some d) : d < 16 := by
  revert h; unfold hexVal?; dsimp only; split_ifs <;> simp <;> omega

theorem hexVal_hexChar (n : Nat) (h : n < 16) : hexVal? (hexChar n) = some n := by
  revert n; decide

theorem isOutputDigit_hexChar (n : Nat) (h : n < 16) : isOutputDigit (hexChar n) = true := by
  revert n; decide

theorem hexChar_eq_zero_iff (n : Nat) (h : n < 16) : hexChar n = 0x30 ↔ n = 0 := by
  revert n; decide

theorem hexVal_lowerHex (c : Ch) : hexVal? (lowerHex c) = hexVal? c := by
  revert c; decide

theorem lowerHex_of_isHex (c : Ch) (h : isHex c = true) : ∃ n < 16, lowerHex c = hexChar n := by
  revert c; decide

/-! ## The digit sum -/

@[simp] theorem digitSum_nil : digitSum [] = 0 := rfl

theorem digitSum_cons (c : Ch) (cs : Str) :
    digitSum (c :: cs) = 16 ^ cs.length * ((hexVal? c).getD 0) + digitSum cs := by
  rw [digitSum, digitSum, List.length_cons, List.range_succ_eq_map, List.map_cons, List.sum_cons,
    List.map_map]
  congr 1
  congr 1
  apply List.map_congr_left
  intro j _
  simp only [Function.comp, List.getD_cons_succ]
  congr 2
  omega

theorem digitSum_append (s t : Str) : digitSum (s ++ t) = 16 ^ t.length * digitSum s + digitSum t := by
  induction s with
  | nil => simp
  | cons c cs ih => simp only [List.cons_append, digitSum_cons, ih, List.length_append, pow_add]; ring

theorem digitSum_lt (s : Str) : digitSum s < 16 ^ s.length := by
  induction s with
  | nil => simp
  | cons c cs ih =>
    have hd : (hexVal? c).getD 0 < 16 := by
      cases h : hexVal? c with
      | none => simp
      | some d => simpa using hexVal_lt h
    simp only [digitSum_cons, List.length_cons, pow_succ]
    have : 16 ^ cs.length * (hexVal? c).getD 0 ≤ 16 ^ cs.length * 15 := Nat.mul_le_mul_left _ (by omega)
    omega

theorem digitSum_lowerHex (s : Str) : digitSum (s.map lowerHex) = digitSum s := by
  induction s with
  | nil => rfl
  | cons c cs ih => simp only [List.map_cons, digitSum_cons, hexVal_lowerHex, ih, List.length_map]

theorem digitSum_dropZeros (s : Str) : digitSum (s.dropWhile (· == 0x30)) = digitSum s := by
  induction s with
  | nil => rfl
  | cons c cs ih =>
    rw [List.dropWhile_cons]
    split
    · next h =>
      have : c = 0x30 := by simpa using h
      subst this
      rw [ih, digitSum_cons]; simp [show hexVal? 48#8 = some 0 from rfl]
    · rfl

theorem digitSum_ge_of_head (c : Ch) (cs : Str) (n : Nat) (hn : hexVal? c = some n) (h0 : n ≠ 0) :
    16 ^ cs.length ≤ digitSum (c :: cs) := by
  rw [digitSum_cons, hn]
  have : 16 ^ cs.length * 1 ≤ 16 ^ cs.length * n := Nat.mul_le_mul_left _ (by omega)
  simp; omega

/-! ## Reading digits -/

theorem hexNatFrom_append (acc : Nat) (s t : Str) :
    hexNatFrom acc (s ++ t) = (hexNatFrom acc s).bind fun v => hexNatFrom v t := by
  induction s generalizing acc with
  | nil => rfl
  | cons c cs ih =>
    simp only [List.cons_append, hexNatFrom]
    cases hexVal? c with
    | none => rfl
    | some d => exact ih _

theorem hexNatFrom_isSome (acc : Nat) (s : Str) : (hexNatFrom acc s).isSome = allHex s := by
  induction s generalizing acc with
  | nil => rfl
  | cons c cs ih =>
    simp only [hexNatFrom, allHex, List.all_cons, isHex]
    cases h : hexVal? c with
    | none => simp
    | some d => simpa [allHex] using ih _

/-- Reading from an accumulator; the accumulator moves up by the digits read. -/
theorem hexNatFrom_eq (acc : Nat) (s : Str) (h : allHex s = true) :
    hexNatFrom acc s = some (16 ^ s.length * acc + digitSum s) := by
  induction s generalizing acc with
  | nil => simp [hexNatFrom]
  | cons c cs ih =>
    simp only [allHex, List.all_cons, Bool.and_eq_true] at h
    obtain ⟨d, hd⟩ := Option.isSome_iff_exists.1 (show (hexVal? c).isSome = true from h.1)
    simp only [hexNatFrom, hd, digitSum_cons, Option.getD_some, List.length_cons]
    rw [ih _ (by simpa [allHex] using h.2)]
    congr 1
    rw [pow_succ]; ring

theorem allHex_lowerHex (s : Str) : allHex (s.map lowerHex) = allHex s := by
  simp only [allHex, List.all_map]; congr 1; funext c; simp [isHex, hexVal_lowerHex]

theorem allHex_dropZeros (s : Str) (h : allHex s = true) : allHex (s.dropWhile (· == 0x30)) = true := by
  simp only [allHex, List.all_eq_true] at *
  intro c hc; exact h c ((List.dropWhile_suffix _).subset hc)

/-! ## The hex mark in front of a string, and padding -/

theorem stripHexPrefix_form (s : Str) : ∃ p ∈ optionalPrefixes, s = p ++ stripHexPrefix s := by
  match s with
  | [] => exact ⟨[], by simp [optionalPrefixes], rfl⟩
  | [c] => exact ⟨[], by simp [optionalPrefixes], rfl⟩
  | c0 :: c1 :: rest =>
    by_cases h : c0 = 0x30 ∧ (c1 = 0x78 ∨ c1 = 0x58)
    · obtain ⟨rfl, rfl | rfl⟩ := h
      · exact ⟨[0x30, 0x78], by simp [optionalPrefixes], rfl⟩
      · exact ⟨[0x30, 0x58], by simp [optionalPrefixes], rfl⟩
    · exact ⟨[], by simp [optionalPrefixes], by rw [stripHexPrefix, if_neg h]; rfl⟩

theorem stripHexPrefix_of_allHex {p d : Str} (hp : p ∈ optionalPrefixes) (h : allHex d = true) :
    stripHexPrefix (p ++ d) = d := by
  simp [optionalPrefixes] at hp
  rcases hp with rfl | rfl | rfl
  · match d with
    | [] => rfl
    | [c] => rfl
    | c0 :: c1 :: rest =>
      simp [allHex] at h
      have : ¬ (c1 = 0x78 ∨ c1 = 0x58) := by
        rintro (rfl | rfl) <;> exact absurd h.2.1 (by decide)
      show stripHexPrefix (c0 :: c1 :: rest) = _
      rw [stripHexPrefix, if_neg (fun hh => this hh.2)]
  · rfl
  · rfl

theorem allHex_pad (s : Str) : allHex (padToEvenLength s) = allHex s := by
  unfold padToEvenLength; split
  · rw [allHex, List.all_cons, show isHex 0x30 = true from rfl, Bool.true_and]; rfl
  · rfl

theorem pad_length_eq_32 (d : Str) : (padToEvenLength d).length = 32 ↔ d.length = 31 ∨ d.length = 32 := by
  unfold padToEvenLength; split <;> simp <;> omega

/-! ## The chunks of a key -/

theorem chunk_length (t : Str) (h : t.length = 32) (i : Nat) (hi : i < 4) : (chunk t i).length = 8 := by
  simp [chunk, Config.CHUNK_DIGITS, h]; omega

theorem eq_chunks (t : Str) (h : t.length = 32) :
    t = chunk t 0 ++ (chunk t 1 ++ (chunk t 2 ++ chunk t 3)) := by
  simp only [chunk, Config.CHUNK_DIGITS]
  have h3 : List.take 8 (List.drop 24 t) = List.drop 24 t := List.take_of_length_le (by simp; omega)
  simp only [Nat.mul_zero, List.drop_zero, Nat.mul_one, show 8 * 2 = 16 from rfl,
    show 8 * 3 = 24 from rfl, h3]
  have e1 : List.take 8 (List.drop 16 t) ++ List.drop 24 t = List.drop 16 t := by
    rw [show List.drop 24 t = List.drop 8 (List.drop 16 t) by rw [List.drop_drop]]
    exact List.take_append_drop _ _
  have e2 : List.take 8 (List.drop 8 t) ++ List.drop 16 t = List.drop 8 t := by
    rw [show List.drop 16 t = List.drop 8 (List.drop 8 t) by rw [List.drop_drop]]
    exact List.take_append_drop _ _
  rw [e1, e2, List.take_append_drop]

theorem Key.value_inj {a b : Key} (h : a.value = b.value) : a = b := by
  obtain ⟨a0, a1, a2, a3⟩ := a
  obtain ⟨b0, b1, b2, b3⟩ := b
  simp only [Key.value] at h
  have := a0.isLt; have := a1.isLt; have := a2.isLt; have := a3.isLt
  have := b0.isLt; have := b1.isLt; have := b2.isLt; have := b3.isLt
  simp only [Key.mk.injEq]
  refine ⟨BitVec.eq_of_toNat_eq ?_, BitVec.eq_of_toNat_eq ?_, BitVec.eq_of_toNat_eq ?_,
    BitVec.eq_of_toNat_eq ?_⟩ <;> omega

/-! ## The digits of an output string -/

theorem blockValue_lt (l r : Word) : blockValue l r < 2 ^ 64 := by
  have := l.isLt; have := r.isLt
  simp only [blockValue]; omega

theorem blockValue_eq_zero_iff (l r : Word) : blockValue l r = 0 ↔ l = 0 ∧ r = 0 := by
  simp only [blockValue]
  constructor
  · intro h
    exact ⟨BitVec.eq_of_toNat_eq (by simp; omega), BitVec.eq_of_toNat_eq (by simp; omega)⟩
  · rintro ⟨rfl, rfl⟩; rfl

theorem digitCount_le (v : Nat) : 1 ≤ digitCount v ∧ digitCount v ≤ 16 := by
  unfold digitCount
  cases h : (List.range' 1 Config.OUT_MAX_DIGITS).find? (fun n => decide (v < 16 ^ n)) with
  | none => simp [Config.OUT_MAX_DIGITS]
  | some n =>
    have := List.mem_of_find?_eq_some h
    simp [Config.OUT_MAX_DIGITS] at this
    simp; omega

/-- `digitCount` is the least number of digits that holds the value. -/
theorem digitCount_spec (v : Nat) (hv : v < 2 ^ 64) :
    v < 16 ^ digitCount v ∧ (v ≠ 0 → 16 ^ (digitCount v - 1) ≤ v) := by
  unfold digitCount
  cases h : (List.range' 1 Config.OUT_MAX_DIGITS).find? (fun n => decide (v < 16 ^ n)) with
  | none =>
    rw [List.find?_eq_none] at h
    have := h 16 (by simp [Config.OUT_MAX_DIGITS])
    norm_num at this; omega
  | some n =>
    rw [List.find?_eq_some_iff_append] at h
    obtain ⟨h1, as, bs, h2, h3⟩ := h
    refine ⟨by simpa using h1, fun h0 => ?_⟩
    simp only [Option.getD_some]
    have hmem : n ∈ List.range' 1 Config.OUT_MAX_DIGITS := by rw [h2]; simp
    have hn : 1 ≤ n := by simp at hmem; omega
    rcases Nat.lt_or_ge 1 n with hn' | hn'
    · have hlow : n - 1 ∈ as := by
        have hp : (List.range' 1 Config.OUT_MAX_DIGITS).Pairwise (· < ·) := by decide
        have m1 : n - 1 ∈ List.range' 1 Config.OUT_MAX_DIGITS := by
          simp at hmem ⊢; omega
        rw [h2] at m1 hp
        rw [List.pairwise_append, List.pairwise_cons] at hp
        simp only [List.mem_append, List.mem_cons] at m1
        rcases m1 with m | m | m
        · exact m
        · omega
        · have := hp.2.1.1 _ m; omega
      simpa using h3 _ hlow
    · have : n = 1 := by omega
      subst this; simp; omega

/-- The `n` lowest hex digits of `v`, most significant first: the body of `encodeBlock`. -/
def digits (n v : Nat) : Str := (List.range n).map fun j => hexChar ((v >>> (4 * (n - 1 - j))) % 16)

theorem encodeBlock_eq_digits (l r : Word) :
    encodeBlock l r = digits (digitCount (blockValue l r)) (blockValue l r) := by
  unfold encodeBlock
  dsimp only
  split
  · next h => rw [h]; rfl
  · rfl

@[simp] theorem digits_length (n v : Nat) : (digits n v).length = n := by simp [digits]

theorem digits_succ (n v : Nat) : digits (n + 1) v = digits n (v / 16) ++ [hexChar (v % 16)] := by
  simp only [digits, List.range_succ, List.map_append, List.map_cons, List.map_nil]
  congr 1
  · apply List.map_congr_left
    intro j hj
    have : j < n := by simpa using hj
    congr 2
    rw [show 4 * (n + 1 - 1 - j) = 4 + 4 * (n - 1 - j) by omega, Nat.shiftRight_add]
    congr 1
    simp [Nat.shiftRight_eq_div_pow]
  · simp

theorem digits_allHex (n v : Nat) : allHex (digits n v) = true := by
  simp only [allHex, digits, List.all_map, List.all_eq_true]
  intro j _
  simp [isHex, hexVal_hexChar _ (Nat.mod_lt _ (by omega : 16 > 0))]

theorem digits_sum (n v : Nat) : digitSum (digits n v) = v % 16 ^ n := by
  induction n generalizing v with
  | zero => simp [digits]; omega
  | succ n ih =>
    rw [digits_succ, digitSum_append, ih]
    have : digitSum [hexChar (v % 16)] = v % 16 := by
      simp [digitSum_cons, hexVal_hexChar _ (Nat.mod_lt v (by omega : 16 > 0))]
    have e := Nat.mod_mul (x := v) (a := 16) (b := 16 ^ n)
    rw [← pow_succ'] at e
    rw [this, List.length_singleton, e]
    omega

theorem digits_head (n v : Nat) (hn : 1 ≤ n) :
    (digits n v).head? = some (hexChar (v / 16 ^ (n - 1) % 16)) := by
  obtain ⟨m, rfl⟩ : ∃ m, n = m + 1 := ⟨n - 1, by omega⟩
  simp [digits, List.range_succ_eq_map, Nat.shiftRight_eq_div_pow, pow_mul]

/-- A string of lowercase digits is the digits of its own value. -/
theorem eq_digits (s : Str) (h : ∀ c ∈ s, ∃ n < 16, c = hexChar n) : s = digits s.length (digitSum s) := by
  induction s using List.reverseRecOn with
  | nil => rfl
  | append_singleton s c ih =>
    obtain ⟨n, hn, rfl⟩ := h c (by simp)
    have hs := ih (fun c hc => h c (by simp [hc]))
    have e : digitSum [hexChar n] = n := by simp [digitSum_cons, hexVal_hexChar n hn]
    rw [List.length_append, List.length_singleton, digits_succ, digitSum_append, e,
      List.length_singleton, show (16 ^ 1 * digitSum s + n) / 16 = digitSum s by omega,
      show (16 ^ 1 * digitSum s + n) % 16 = n by omega, ← hs]

theorem encodeBlock_length (l r : Word) : 1 ≤ (encodeBlock l r).length ∧ (encodeBlock l r).length ≤ 16 := by
  rw [encodeBlock_eq_digits, digits_length]; exact digitCount_le _

theorem encodeBlock_allHex (l r : Word) : allHex (encodeBlock l r) = true := by
  rw [encodeBlock_eq_digits]; exact digits_allHex _ _

end Sys2Proof.Machine
end

