-- ==== Sys2Proof/Laws/Facade.lean ====
section
/-! SUPPORT. Every command as one end of a command over its operands, and what the facade's sequence can
answer. -/

namespace Sys2Proof.Machine

/-! ## Every meaning is `finish` of a result and a commit -/

theorem exec_decKey (s : State) :
    exec .decKey s = finish ((keyString s).bind decodeKeyWords) setKey s := rfl

theorem exec_decBlk (s : State) :
    exec .decBlk s = finish ((dataString s).bind decodeBlock) (fun b => setBlock b.1 b.2) s := rfl

theorem exec_encBlk (s : State) :
    exec .encBlk s = finish (.ok (encodeBlock s.l s.r)) setOutput s := rfl

theorem exec_encR (s : State) :
    exec .encR s = finish (.ok (encryptRounds s.k s.l s.r)) setRounds s := rfl

theorem exec_decR (s : State) :
    exec .decR s = finish (.ok (decryptRounds s.k s.l s.r)) setRounds s := rfl

theorem exec_facade (d : Direction) (s : State) :
    exec d.command s = finish (facadeOperands d s) (setFacade d) s := by
  cases d <;> rfl

/-- Every meaning ends in `finish`, so what `finish` can do is all that a command can do. -/
theorem exec_eq_finish (i : Instr) (s : State) :
    ∃ (α : Type) (x : Except Raise α) (c : α → State → State), exec i s = finish x c s := by
  cases i with
  | decKey => exact ⟨_, _, _, exec_decKey s⟩
  | decBlk => exact ⟨_, _, _, exec_decBlk s⟩
  | encBlk => exact ⟨_, _, _, exec_encBlk s⟩
  | encR => exact ⟨_, _, _, exec_encR s⟩
  | decR => exact ⟨_, _, _, exec_decR s⟩
  | encrypt => exact ⟨_, _, _, exec_facade .encrypt s⟩
  | decrypt => exact ⟨_, _, _, exec_facade .decrypt s⟩

/-! ## The facade -/

theorem eq_command {i : Instr} (h : i = .encrypt ∨ i = .decrypt) : ∃ d : Direction, i = d.command := by
  rcases h with rfl | rfl
  · exact ⟨.encrypt, rfl⟩
  · exact ⟨.decrypt, rfl⟩

theorem facadeOperands_eq (d : Direction) (s : State) (h1 : s.dlen.toNat ≤ 64) (h2 : s.klen.toNat ≤ 64) :
    facadeOperands d s =
      facadeBlocks d (s.din.toList.take s.dlen.toNat) (s.kin.toList.take s.klen.toNat) := by
  simp only [facadeOperands, dataString, keyString, stringOperand_ok h1, stringOperand_ok h2, Except.bind]

/-- Everything that holds when the sequence of R151 answers a result. -/
theorem facadeBlocks_ok {d : Direction} {data key : Str} {x : FacadeResult}
    (h : facadeBlocks d data key = .ok x) :
    isBlank data = false ∧ isBlank key = false ∧
      ∃ b, decodeKeyWords key = .ok x.k ∧ decodeBlock data = .ok b ∧ (x.l, x.r) = d.apply x.k b.1 b.2 := by
  unfold facadeBlocks at h
  split at h
  · cases h
  next h1 =>
  split at h
  · cases h
  next h2 =>
  refine ⟨by simpa using h1, by simpa using h2, ?_⟩
  simp only [expand] at h
  cases hk : decodeKeyWords key with
  | error e => rw [hk] at h; cases h
  | ok w =>
    rw [hk] at h
    simp only [Except.bind] at h
    cases hb : decodeBlock data with
    | error e => rw [hb] at h; cases h
    | ok b =>
      rw [hb] at h
      cases h
      exact ⟨b, rfl, rfl, rfl⟩

/-- Every error a facade command raises is one that `STATUS` reports back to the HOST. -/
theorem reportedError_of_facadeOperands {d : Direction} {s : State} {e : Raise}
    (h : facadeOperands d s = .error e) : reportedError (errorStatus e) = some e := by
  unfold facadeOperands dataString keyString at h
  rcases stringOperand_cases s.din s.dlen .data with ⟨-, h1⟩ | ⟨-, h1⟩ <;> rw [h1] at h
  · cases h; rfl
  rcases stringOperand_cases s.kin s.klen .key with ⟨-, h2⟩ | ⟨-, h2⟩ <;> rw [h2] at h
  · cases h; rfl
  simp only [Except.bind, facadeBlocks] at h
  split at h
  · cases h; rfl
  split at h
  · cases h; rfl
  simp only [expand] at h
  rcases decodeKeyWords_cases (s.kin.toList.take s.klen.toNat) with ⟨w, hw⟩ | hw <;> rw [hw] at h
  · rcases decodeBlock_cases (s.din.toList.take s.dlen.toNat) with ⟨b, hb⟩ | hb <;> rw [hb] at h
    · cases h
    · cases h; rfl
  · cases h; rfl

end Sys2Proof.Machine
end

