-- ==== Sys2Proof/Laws/HostPort.lean ====
section
/-! SUPPORT. The laws of the register space: where each index leads, what a read sees of a write, and what
one access can do. -/

namespace Sys2Proof.Machine

theorem regAt_din (a : RegIndex) (j : Fin 64) (h : a.toNat = 0x40 + j.val) : regAt a = .din j := by
  have : a = BitVec.ofNat 8 (0x40 + j.val) := BitVec.eq_of_toNat_eq (by rw [h, BitVec.toNat_ofNat]; omega)
  subst this; clear h; revert j; decide

theorem regAt_kin (a : RegIndex) (j : Fin 64) (h : a.toNat = 0x80 + j.val) : regAt a = .kin j := by
  have : a = BitVec.ofNat 8 (0x80 + j.val) := BitVec.eq_of_toNat_eq (by rw [h, BitVec.toNat_ofNat]; omega)
  subst this; clear h; revert j; decide

theorem regAt_dout (a : RegIndex) (j : Fin 16) (h : a.toNat = 0xC0 + j.val) : regAt a = .dout j := by
  have : a = BitVec.ofNat 8 (0xC0 + j.val) := BitVec.eq_of_toNat_eq (by rw [h, BitVec.toNat_ofNat]; omega)
  subst this; clear h; revert j; decide

theorem regAt_unmapped (a : RegIndex) (h : (0x0D ≤ a.toNat ∧ a.toNat ≤ 0x3F) ∨ 0xD0 ≤ a.toNat) :
    regAt a = .unmapped := by
  revert a; decide

theorem regAt_eq_cmd_iff (a : RegIndex) : regAt a = .cmd ↔ a = 0 := by
  revert a; decide

theorem regAt_eq_k (a : RegIndex) (i : Fin 4) (h : regAt a = .k i) : 0x04 ≤ a.toNat ∧ a.toNat ≤ 0x07 := by
  revert a; revert i; decide

theorem setWidth_toNat {n : Nat} (b : BitVec n) (h : n ≤ 32) : (b.setWidth 32).toNat = b.toNat := by
  rw [BitVec.toNat_setWidth]
  exact Nat.mod_eq_of_lt (lt_of_lt_of_le b.isLt (Nat.pow_le_pow_right (by omega) h))

@[simp] theorem Key.get_set_same (k : Key) (i : Fin 4) (v : Word) : (k.set i v).get i = v := by
  obtain ⟨i, hi⟩ := i
  interval_cases i <;> rfl

theorem Key.get_set_other (k : Key) (i j : Fin 4) (v : Word) (h : i ≠ j) : (k.set i v).get j = k.get j := by
  obtain ⟨i, hi⟩ := i
  obtain ⟨j, hj⟩ := j
  interval_cases i <;> interval_cases j <;> first | rfl | exact absurd rfl h

@[simp] theorem Key.set_set (k : Key) (i : Fin 4) (v w : Word) : (k.set i v).set i w = k.set i w := by
  obtain ⟨i, hi⟩ := i
  interval_cases i <;> rfl

/-- A write leaves every other register as it was; a write to `CMD` is the one that also changes
`STATUS`. -/
theorem readReg_writeReg_other (v : Word) (s : State) (x y : Reg) (h : x ≠ y) (hc : x ≠ .cmd) :
    readReg (writeReg v s x) y = readReg s y := by
  cases x with
  | cmd => exact absurd rfl hc
  | k i =>
    cases y with
    | k j => exact Key.get_set_other _ _ _ _ (fun e => h (by rw [e]))
    | _ => rfl
  | din i =>
    cases y with
    | din j =>
      have : i.val ≠ j.val := fun e => h (by rw [Fin.ext e])
      simp [writeReg, readReg, this]
    | _ => rfl
  | kin i =>
    cases y with
    | kin j =>
      have : i.val ≠ j.val := fun e => h (by rw [Fin.ext e])
      simp [writeReg, readReg, this]
    | _ => rfl
  | l => cases y <;> first | rfl | exact absurd rfl h
  | r => cases y <;> first | rfl | exact absurd rfl h
  | dlen => cases y <;> first | rfl | exact absurd rfl h
  | klen => cases y <;> first | rfl | exact absurd rfl h
  | _ => rfl

/-- A read after a write of a full-width register gives the word written. -/
theorem readReg_writeReg_word (v : Word) (s : State) (i : Fin 4) :
    readReg (writeReg v s .l) .l = v ∧ readReg (writeReg v s .r) .r = v ∧
      readReg (writeReg v s (.k i)) (.k i) = v :=
  ⟨rfl, rfl, Key.get_set_same _ _ _⟩

/-- A read after a write of an 8-bit register gives bits [7:0] of the word written. -/
theorem readReg_writeReg_byte (v : Word) (s : State) (i : Fin 64) :
    readReg (writeReg v s .dlen) .dlen = (v.setWidth 8).setWidth 32 ∧
      readReg (writeReg v s .klen) .klen = (v.setWidth 8).setWidth 32 ∧
      readReg (writeReg v s (.din i)) (.din i) = (v.setWidth 8).setWidth 32 ∧
      readReg (writeReg v s (.kin i)) (.kin i) = (v.setWidth 8).setWidth 32 := by
  refine ⟨rfl, rfl, ?_, ?_⟩ <;> simp [writeReg, readReg]

/-- Writing a register other than `CMD` twice is writing it once. -/
theorem writeReg_writeReg (v w : Word) (s : State) (x : Reg) (h : x ≠ .cmd) :
    writeReg w (writeReg v s x) x = writeReg w s x := by
  cases x with
  | cmd => exact absurd rfl h
  | _ => simp [writeReg]

/-- A read sees neither the model's inputs and replies nor `OPLATCH`. -/
theorem readReg_congr (s : State) (i : List Input) (p : List Reply) (o : Word) (x : Reg) :
    readReg { s with inputs := i, replies := p, opLatch := o } x = readReg s x := by
  cases x <;> rfl

theorem memWrite_busy {s : State} (a : RegIndex) (v : Word) (hb : s.busy = true) :
    memWrite a v s = s := by
  simp [memWrite, hb]

theorem memWrite_cmd {s : State} {w : Word} (hb : s.busy = false) :
    memWrite 0 w s = acceptCommand w s := by
  simp [memWrite, hb, regAt, writeReg]

/-- A read whose value the spec states uses up no free value. -/
theorem drawsAfterRead_of_stated {a : RegIndex} {s : State} (h : readIsOpen a s = false) :
    drawsAfterRead a s = s.draws := by
  simp [drawsAfterRead, h]

/-- A read that the next input repeats uses up no free value. -/
theorem drawsAfterRead_of_repeated {a : RegIndex} {s : State} {rest : List Input}
    (h : s.inputs = .access (.read a) :: rest) : drawsAfterRead a s = s.draws := by
  simp [drawsAfterRead, h]

/-- What a read returns depends on the outside only through the number of the current free value. -/
theorem memRead_congr (a : RegIndex) (s : State) (i : List Input) (p : List Reply) :
    memRead a { s with inputs := i, replies := p } = memRead a s := by
  have h : readReg { s with inputs := i, replies := p } (regAt a) = readReg s (regAt a) :=
    readReg_congr s i p s.opLatch (regAt a)
  simp only [memRead, h]; rfl

/-- Everything a write can do: nothing, start a command, or change one writable register and none of
`STATUS`, `OPLATCH`, `SUM`, `RND`, `OLEN`, `DOUT`. -/
theorem memWrite_cases (a : RegIndex) (v : Word) (s : State) :
    memWrite a v s = s ∨ (s.busy = false ∧ a = 0 ∧ memWrite a v s = acceptCommand v s) ∨
    (s.busy = false ∧ a ≠ 0 ∧ (memWrite a v s).status = s.status ∧ (memWrite a v s).opLatch = s.opLatch ∧
      (memWrite a v s).sum = s.sum ∧ (memWrite a v s).rnd = s.rnd ∧ (memWrite a v s).olen = s.olen ∧
      (memWrite a v s).dout = s.dout ∧
      ((memWrite a v s).k = s.k ∨ (0x04 ≤ a.toNat ∧ a.toNat ≤ 0x07))) := by
  cases hb : s.busy with
  | true => left; simp [memWrite, hb]
  | false =>
    right
    by_cases ha : a = 0
    · subst ha; left; exact ⟨rfl, rfl, memWrite_cmd hb⟩
    · right
      refine ⟨rfl, ha, ?_⟩
      have e : memWrite a v s = writeReg v s (regAt a) := by simp [memWrite, hb]
      rw [e]
      have hc : regAt a ≠ .cmd := fun h => ha ((regAt_eq_cmd_iff a).1 h)
      cases hr : regAt a with
      | cmd => exact absurd hr hc
      | k i => exact ⟨rfl, rfl, rfl, rfl, rfl, rfl, .inr (regAt_eq_k a i hr)⟩
      | _ => exact ⟨rfl, rfl, rfl, rfl, rfl, rfl, .inl rfl⟩

end Sys2Proof.Machine
end

