-- ==== Sys2Proof/Laws/PerInstr.lean ====
section
/-! SUPPORT. Statements made per command, about the command as syntax. `FormatC`: every command's word is of
the one command format `C` (rule R70), with its reserved bits 0 and an assigned opcode. -/

namespace Sys2Proof.Laws

/-- The word of the command is of format `C` (R70): `RSVD` is 0, `OP` is assigned and is the whole word. -/
def FormatC.Statement (i : Instr) : Prop :=
  i.wf = true ∧ rsvdField (encode i) = 0 ∧ opAssigned (encode i) = true ∧
    encode i = (opField (encode i)).setWidth 32

theorem FormatC.decKey : FormatC.Statement .decKey := by unfold FormatC.Statement; decide

theorem FormatC.decBlk : FormatC.Statement .decBlk := by unfold FormatC.Statement; decide

theorem FormatC.encBlk : FormatC.Statement .encBlk := by unfold FormatC.Statement; decide

theorem FormatC.encR : FormatC.Statement .encR := by unfold FormatC.Statement; decide

theorem FormatC.decR : FormatC.Statement .decR := by unfold FormatC.Statement; decide

theorem FormatC.encrypt : FormatC.Statement .encrypt := by unfold FormatC.Statement; decide

theorem FormatC.decrypt : FormatC.Statement .decrypt := by unfold FormatC.Statement; decide

end Sys2Proof.Laws
end

