-- ==== Sys2Proof/Laws/Step.lean ====
section
/-! SUPPORT. What one step can do, once for all later proofs: which event it takes, what the CORE's step
and a HOST access make of it, and runs of several steps. -/

namespace Sys2Proof.Machine

/-! ## Which event -/

theorem step_nil {s : State} (h : s.inputs = []) : step s = coreStep s := by
  simp [step, nextEvent, h]

theorem step_cons {s : State} {x : Input} {rest : List Input} (h : s.inputs = x :: rest) :
    step s = takeInput x { s with inputs := rest } := by
  simp [step, nextEvent, h]

theorem step_core {s : State} {rest : List Input} (h : s.coreNext rest) :
    step s = coreStep { s with inputs := rest } := by
  rcases h with h | ⟨h, rfl⟩
  · rw [step_cons h]; rfl
  · rw [step_nil h, ← h]

/-- Everything a step can be: the CORE step that may end a command, a CORE step before it, a HOST access, or a
reset. -/
theorem step_cases {s t : State} (h : step s = .next t) :
    (∃ rest, s.coreNext rest ∧ coreStep { s with inputs := rest } = .next t) ∨
    (∃ rest, s.inputs = .coreProgress :: rest ∧ t = { s with inputs := rest }) ∨
    (∃ a rest, s.inputs = .access a :: rest ∧ t = serve a { s with inputs := rest }) ∨
    (∃ rest, s.inputs = .reset :: rest ∧ t = applyReset { s with inputs := rest }) := by
  cases hi : s.inputs with
  | nil =>
    exact .inl ⟨[], .inr ⟨hi, rfl⟩, by rw [step_core (rest := []) (.inr ⟨hi, rfl⟩)] at h; exact h⟩
  | cons x rest =>
    rw [step_cons hi] at h
    cases x with
    | access a => exact .inr (.inr (.inl ⟨a, rest, rfl, by cases h; rfl⟩))
    | coreProgress => exact .inr (.inl ⟨rest, rfl, by cases h; rfl⟩)
    | coreTurn => exact .inl ⟨rest, .inl hi, h⟩
    | reset => exact .inr (.inr (.inr ⟨rest, rfl, by cases h; rfl⟩))

/-! ## The CORE's step -/

theorem coreStep_ok {s : State} {i : Instr} (hb : s.busy = true) (hd : decode s.opLatch = .ok i) :
    coreStep s = exec i s := by
  simp [coreStep, hb, hd]

theorem coreStep_illegal {s : State} {e : Illegal} (hb : s.busy = true)
    (hd : decode s.opLatch = .error e) : coreStep s = .next (raise raiseCommand s) := by
  simp [coreStep, hb, hd]

theorem coreStep_idle {s : State} (hb : s.busy = false) : coreStep s = .next s := by
  simp [coreStep, hb]

/-- Every meaning answers a next state. -/
theorem exec_next (i : Instr) (s : State) : ∃ t, exec i s = .next t := by
  obtain ⟨_, x, c, h⟩ := exec_eq_finish i s
  rw [h]; exact finish_next x c s

/-- Everything a meaning can end with: all results committed and `DONE`, or one error and nothing else. -/
theorem exec_ends {i : Instr} {s t : State} (h : exec i s = .next t) :
    t.status = statusDone ∨ ∃ e, t = raise e s := by
  obtain ⟨_, x, c, hx⟩ := exec_eq_finish i s
  rw [hx] at h
  rcases finish_cases h with ⟨a, -, rfl⟩ | ⟨e, -, rfl⟩
  · exact .inl rfl
  · exact .inr ⟨e, rfl⟩

/-- What a meaning leaves in the output buffer: what was there, or the encoding of some block. -/
theorem exec_output {i : Instr} {s t : State} (h : exec i s = .next t) :
    (t.olen = s.olen ∧ t.dout = s.dout) ∨
    ∃ l r, t.olen = BitVec.ofNat 5 (encodeBlock l r).length ∧ t.dout = outputBuffer (encodeBlock l r) := by
  cases i with
  | decKey =>
    rw [exec_decKey] at h
    rcases finish_cases h with ⟨a, -, rfl⟩ | ⟨e, -, rfl⟩ <;> exact .inl ⟨rfl, rfl⟩
  | decBlk =>
    rw [exec_decBlk] at h
    rcases finish_cases h with ⟨a, -, rfl⟩ | ⟨e, -, rfl⟩ <;> exact .inl ⟨rfl, rfl⟩
  | encBlk =>
    rw [exec_encBlk] at h
    rcases finish_cases h with ⟨a, ha, rfl⟩ | ⟨e, he, -⟩
    · cases ha; exact .inr ⟨s.l, s.r, rfl, rfl⟩
    · cases he
  | encR =>
    rw [exec_encR] at h
    rcases finish_cases h with ⟨a, -, rfl⟩ | ⟨e, -, rfl⟩ <;> exact .inl ⟨rfl, rfl⟩
  | decR =>
    rw [exec_decR] at h
    rcases finish_cases h with ⟨a, -, rfl⟩ | ⟨e, -, rfl⟩ <;> exact .inl ⟨rfl, rfl⟩
  | encrypt =>
    rw [show exec .encrypt s = _ from exec_facade .encrypt s] at h
    rcases finish_cases h with ⟨a, -, rfl⟩ | ⟨e, -, rfl⟩
    · exact .inr ⟨a.l, a.r, rfl, rfl⟩
    · exact .inl ⟨rfl, rfl⟩
  | decrypt =>
    rw [show exec .decrypt s = _ from exec_facade .decrypt s] at h
    rcases finish_cases h with ⟨a, -, rfl⟩ | ⟨e, -, rfl⟩
    · exact .inr ⟨a.l, a.r, rfl, rfl⟩
    · exact .inl ⟨rfl, rfl⟩

/-! ## A HOST access -/

theorem step_read {s : State} {a : RegIndex} {rest : List Input} (hb : s.busy = false)
    (hi : s.inputs = .access (.read a) :: rest) :
    step s = .next { s with inputs := rest, replies := ⟨a, readReg s (regAt a)⟩ :: s.replies } := by
  rw [step_cons hi]
  have h0 : readIsOpen a { s with inputs := rest } = false := by
    show (s.busy && _) = false; rw [hb]; rfl
  have h1 : ∀ x, readReg { s with inputs := rest } x = readReg s x := by intro x; cases x <;> rfl
  have h2 : drawsAfterRead a { s with inputs := rest } = s.draws := drawsAfterRead_of_stated h0
  simp only [takeInput, serve, memRead, h0, h1, h2, Bool.false_eq_true, if_false]

theorem step_write {s : State} {a : RegIndex} {v : Word} {rest : List Input} (hb : s.busy = false)
    (hi : s.inputs = .access (.write a v) :: rest) :
    step s = .next (writeReg v { s with inputs := rest } (regAt a)) := by
  rw [step_cons hi]
  have h0 : State.busy { s with inputs := rest } = false := hb
  simp only [takeInput, serve, memWrite, h0, Bool.false_eq_true, if_false]

/-- An access while `BUSY` leaves the CORE `BUSY` and the coming inputs as they are. -/
theorem serve_busy {s : State} (a : HostAccess) (hb : s.busy = true) :
    (serve a s).busy = true ∧ (serve a s).inputs = s.inputs := by
  cases a with
  | read a => exact ⟨hb, rfl⟩
  | write a v => simp [serve, memWrite, hb]

/-! ## Several steps -/

theorem runSteps_succ {n : Nat} {s t : State} (h : step s = .next t) :
    runSteps (n + 1) s = runSteps n t := by
  simp [runSteps, h]

theorem runSteps_one (s : State) : runSteps 1 s = step s := by
  simp only [runSteps]; cases step s <;> rfl

theorem runSteps_add {m n : Nat} {s t : State} (h : runSteps m s = .next t) :
    runSteps (m + n) s = runSteps n t := by
  induction m generalizing s with
  | zero => cases h; rw [Nat.zero_add]
  | succ m ih =>
    rw [show m + 1 + n = (m + n) + 1 by omega]
    simp only [runSteps] at h ⊢
    cases hu : step s with
    | next u => rw [hu] at h; exact ih h
    | fault f => rw [hu] at h; cases h
    | refused r => rw [hu] at h; cases h

theorem putChars_length (b : Nat) (s : Str) : (putChars b s).length = s.length := by
  induction s generalizing b with
  | nil => rfl
  | cons c cs ih => simp [putChars, ih]

end Sys2Proof.Machine
end

