-- ==== Sys2Proof/Tests/Slice0.lean ====
section
/-! SUPPORT. The model's own tests. Expected values are the vectors of spec/95_test_vectors.md (named in each
comment) or are written out from the encodings of spec/30_encoding.md; the witnesses show, for each
obligation with hypotheses, a concrete state and operands that meet them. -/

namespace Sys2Proof.Tests

open Sys2Proof Sys2Proof.Machine

/-! ## Helpers -/

/-- The string of `n` characters whose ASCII codes are the bytes of `v`, the first the highest. -/
def str (n v : Nat) : Str := (List.range n).map fun j => BitVec.ofNat 8 (v >>> (8 * (n - 1 - j)))

/-- A buffer that holds a string, and 0 after it. -/
def buffer (s : Str) : Vector Ch 64 := Vector.ofFn fun j => s.getD j.val 0

/-- A state with every register 0, in which the last command completed. -/
def base : State where
  k := ⟨0, 0, 0, 0⟩
  l := 0
  r := 0
  sum := 0
  rnd := 0
  status := 0x02
  opLatch := 0
  dlen := 0
  klen := 0
  olen := 0
  din := buffer []
  kin := buffer []
  dout := Vector.replicate 16 0
  inputs := []
  replies := []
  draws := 0

/-- `base` with a data string and a key string. -/
def onStrings (data key : Str) : State :=
  { base with
    din := buffer data
    dlen := BitVec.ofNat 8 data.length
    kin := buffer key
    klen := BitVec.ofNat 8 key.length }

/-- `base` with a key and a block in the registers. -/
def onWords (k : Key) (l r : Word) : State := { base with k := k, l := l, r := r }

/-- `base` with a command accepted. -/
def started (w : Word) : State := { base with opLatch := w, status := 0x01 }

/-- What a test looks at in an outcome; none for a fault or a refusal. -/
def after {α : Type} (f : State → α) : Host.Outcome State Fault Refusal → Option α
  | .next t => some (f t)
  | .fault _ => none
  | .refused _ => none

def keyA : Key := ⟨0x00112233, 0x44556677, 0x8899aabb, 0xccddeeff⟩

/-! ## Well-formed and ill-formed words and strings -/

/-- No command has an operand that could be ill-formed (R70, R83). -/
theorem test_wf_all :
    ∀ i : Instr, i.wf = true := by intro i; cases i <;> rfl

/-- V-P14, V-P15: `RSVD` not 0 is refused, however good the `OP` field. -/
theorem test_wf_reserved_bits :
    reservedBitsClear 0x00000108 = false ∧ commandWordWf 0x80000001 = false := by decide

/-- R72, V-P13: each reserved `OP` is refused. -/
theorem test_wf_reserved_op :
    (reservedOps.all fun n => opAssigned (BitVec.ofNat 32 n) == false) = true ∧ commandWordWf 0x00000006 = false := by decide

/-- V-F70: 65 characters do not fit a buffer, 64 do. -/
theorem test_wf_string_too_long :
    stringFits (List.replicate 65 0x30) = false ∧ stringFits (List.replicate 64 0x30) = true := by decide

/-! ## Decoding: words written out from T-R70 and T-R71 (`RSVD` 28 bits, `OP` 4 bits) -/

/-- T-R71: `OP` = 0x1. -/
theorem test_decode_decKey :
    decode 0b00000000000000000000000000000001#32 = .ok .decKey ∧ encode .decKey = 0x00000001 ∧
      decodeTableWord 32 1 = some .decKey := ⟨rfl, rfl, rfl⟩

/-- T-R71: `OP` = 0x2. -/
theorem test_decode_decBlk :
    decode 0b00000000000000000000000000000010#32 = .ok .decBlk ∧ encode .decBlk = 0x00000002 ∧
      decodeTableWord 32 2 = some .decBlk := ⟨rfl, rfl, rfl⟩

/-- T-R71: `OP` = 0x3. -/
theorem test_decode_encBlk :
    decode 0b00000000000000000000000000000011#32 = .ok .encBlk ∧ encode .encBlk = 0x00000003 ∧
      decodeTableWord 32 3 = some .encBlk := ⟨rfl, rfl, rfl⟩

/-- T-R71: `OP` = 0x4. -/
theorem test_decode_encR :
    decode 0b00000000000000000000000000000100#32 = .ok .encR ∧ encode .encR = 0x00000004 ∧
      decodeTableWord 32 4 = some .encR := ⟨rfl, rfl, rfl⟩

/-- T-R71: `OP` = 0x5. -/
theorem test_decode_decR :
    decode 0b00000000000000000000000000000101#32 = .ok .decR ∧ encode .decR = 0x00000005 ∧
      decodeTableWord 32 5 = some .decR := ⟨rfl, rfl, rfl⟩

/-- T-R71: `OP` = 0x8. -/
theorem test_decode_encrypt :
    decode 0b00000000000000000000000000001000#32 = .ok .encrypt ∧ encode .encrypt = 0x00000008 ∧
      decodeTableWord 32 8 = some .encrypt := ⟨rfl, rfl, rfl⟩

/-- T-R71: `OP` = 0x9. -/
theorem test_decode_decrypt :
    decode 0b00000000000000000000000000001001#32 = .ok .decrypt ∧ encode .decrypt = 0x00000009 ∧
      decodeTableWord 32 9 = some .decrypt := ⟨rfl, rfl, rfl⟩

/-- V-P13, V-P14, V-P15: rejected by name. -/
theorem test_decode_illegal :
    decode 0x00000006 = .error (.reservedOp 6) ∧ decode 0x00000108 = .error (.reservedBits 0x10) ∧
      decode 0x80000001 = .error (.reservedBits 0x8000000) := ⟨rfl, rfl, rfl⟩

/-! ## Word arithmetic and rounds -/

/-- V-A1, V-A4. -/
theorem test_add_sub_wrap :
    add32 0xffffffff 1 = 0 ∧ sub32 0 0x9e3779b9 = 0x61c88647 := by decide

/-- V-A9, V-A6, V-A11. -/
theorem test_shifts_are_logical :
    shr32 0x80000000 5 = 0x04000000 ∧ shl32 0x89abcdef 4 = 0x9abcdef0 ∧ shl32 Config.DELTA 5 = Config.DSUM0 := by decide

/-- V-R3, V-R8. -/
theorem test_mix :
    mix 0x89abcdef 0x9e3779b9 0x00112233 0x44556677 = 0xf58f826d ∧
      mix 0x051aa70c 0xc6ef3720 0x00112233 0x44556677 = 0xd9cc7770 := by decide

/-- V-E2: `R` reads the new `L`, and the sum advances first. -/
theorem test_encRound :
    encRound keyA ⟨0x01234567, 0x89abcdef, 0⟩ = ⟨0xf6b2c7d4, 0x3d6bb13a, 0x9e3779b9⟩ := by decide

/-- V-E4. -/
theorem test_decRound :
    decRound keyA ⟨0x126c6b92, 0xc0653a3e, 0xc6ef3720⟩ = ⟨0x389ff422, 0x051aa70c, 0x28b7bd67⟩ := by decide

/-! ## Codec functions -/

/-- V-X6, V-X7, V-X9, V-X2: one mark, at the front only. -/
theorem test_strip :
    stripHexPrefix (str 4 0x30583166) = (str 2 0x3166) ∧ stripHexPrefix (str 6 0x307830783132) = (str 4 0x30783132) ∧
      stripHexPrefix (str 4 0x20307831) = (str 4 0x20307831) ∧ stripHexPrefix (str 1 0x30) = (str 1 0x30) := by decide

/-- V-X12, V-X14, V-X1. -/
theorem test_pad :
    padToEvenLength (str 3 0x616263) = (str 4 0x30616263) ∧ padToEvenLength (str 2 0x6162) = (str 2 0x6162) ∧ padToEvenLength [] = [] := by decide

/-- V-K4. -/
theorem test_key_31_digits :
    decodeKeyWords (str 31 0x31323334353637383961626364656666656463626139383736353433323130) =
      .ok ⟨0x01234567, 0x89abcdef, 0xfedcba98, 0x76543210⟩ := rfl

/-- V-K8, V-K16. -/
theorem test_key_malformed :
    decodeKeyWords (str 30 0x303030303030303030303030303030303030303030303030303030303030) = .error ⟨.malformedInput, .key⟩ ∧
      decodeKeyWords (str 32 0x3030303030303030303030303030303030303030303030303030303030303067) = .error ⟨.malformedInput, .key⟩ := ⟨rfl, rfl⟩

set_option maxRecDepth 8000 in
/-- V-B7, V-B29, V-B13. -/
theorem test_block_values :
    decodeBlock (str 9 0x313030303030303030) = .ok (1, 0) ∧ decodeBlock (str 8 0x4465616442656566) = .ok (0, 0xdeadbeef) ∧
      decodeBlock (str 64 0x30303030303030303030303030303030303030303030303030303030303030303030303030303030303030303030303030303030303030303030303030303031) = .ok (0, 1) := ⟨rfl, rfl, rfl⟩

/-- V-B17, V-B19. -/
theorem test_block_malformed :
    decodeBlock (str 2 0x3078) = .error ⟨.malformedInput, .data⟩ ∧
      decodeBlock (str 4 0x31326734) = .error ⟨.malformedInput, .data⟩ := ⟨rfl, rfl⟩

/-- V-O1, V-O9, V-O8, V-O5. -/
theorem test_encodeBlock :
    encodeBlock 0 0 = (str 1 0x30) ∧ encodeBlock 0xa 0xb = (str 9 0x613030303030303062) ∧
      encodeBlock 0xffffffff 0xffffffff = (str 16 0x66666666666666666666666666666666) ∧ encodeBlock 0 0xffffffff = (str 8 0x6666666666666666) := by decide

/-! ## The commands -/

/-- V-K1. -/
theorem test_DECKEY :
    after (fun t => (t.k, t.status)) (exec .decKey (onStrings [] (str 34 0x30783030313132323333343435353636373738383939616162626363646465656666))) = some (keyA, 0x02) := rfl

/-- V-K10: 33 digits are refused and `K` keeps its value. -/
theorem test_DECKEY_malformed :
    after (fun t => (t.k, t.status)) (exec .decKey { onStrings [] (str 33 0x303030303030303030303030303030303030303030303030303030303030303030) with k := keyA }) = some (keyA, 0x2b) := rfl

/-- V-B5. -/
theorem test_DECBLK :
    after (fun t => (t.l, t.r, t.status)) (exec .decBlk (onStrings (str 18 0x307830313233343536373839616263646566) [])) =
      some (0x01234567, 0x89abcdef, 0x02) := rfl

/-- V-B9: a value of 2^64 is refused and the halves keep their values. -/
theorem test_DECBLK_overflow :
    after (fun t => (t.l, t.r, t.status)) (exec .decBlk { onStrings (str 17 0x3130303030303030303030303030303030) [] with l := 5, r := 7 }) = some (5, 7, 0x1b) := rfl

/-- V-O11. -/
theorem test_ENCBLK :
    after (fun t => (t.olen, t.dout.toList, t.status)) (exec .encBlk (onWords ⟨0, 0, 0, 0⟩ 0x41ea3a0a 0x94baa940)) =
      some (16, (str 16 0x34316561336130613934626161393430), 0x02) := by decide

/-- V-O1 as buffer contents. -/
theorem test_ENCBLK_zero_fill :
    after (fun t => (t.olen, t.dout.toList)) (exec .encBlk { base with dout := Vector.replicate 16 0x41, olen := 16 }) =
      some (1, 0x30 :: List.replicate 15 0) := by decide

/-- V-C2. -/
theorem test_ENCR :
    after (fun t => (t.l, t.r, t.sum, t.rnd, t.status)) (exec .encR (onWords keyA 0x01234567 0x89abcdef)) =
      some (0x126c6b92, 0xc0653a3e, 0xc6ef3720, 32, 0x02) := by decide

/-- V-C3: every addition wraps. -/
theorem test_ENCR_wraps :
    after (fun t => (t.l, t.r)) (exec .encR (onWords ⟨0xffffffff, 0xffffffff, 0xffffffff, 0xffffffff⟩ 0xffffffff 0xffffffff)) =
      some (0x319bbefb, 0x016abdb2) := by decide

set_option maxRecDepth 8000 in
/-- V-C2, column "Decrypt". -/
theorem test_DECR :
    after (fun t => (t.l, t.r, t.sum, t.rnd, t.status)) (exec .decR (onWords keyA 0x01234567 0x89abcdef)) =
      some (0xbf467633, 0x9d07a595, 0, 32, 0x02) := by decide

set_option maxRecDepth 8000 in
/-- V-C1 backwards. -/
theorem test_DECR_zero :
    after (fun t => (t.l, t.r)) (exec .decR (onWords ⟨0, 0, 0, 0⟩ 0x41ea3a0a 0x94baa940)) = some (0, 0) := by decide

set_option maxRecDepth 8000 in
/-- V-F10, and `L`, `R`, `SUM` as R152 commits them. -/
theorem test_ENCRYPT :
    after (fun t => (t.l, t.r, t.sum, outputString t, t.status))
        (exec .encrypt (onStrings (str 18 0x307830313233343536373839616263646566) (str 34 0x30783030313132323333343435353636373738383939616162626363646465656666))) =
      some (0x126c6b92, 0xc0653a3e, 0xc6ef3720, (str 16 0x31323663366239326330363533613365), 0x02) := by decide

/-- V-P6, V-P5. -/
theorem test_ENCRYPT_priority :
    after (fun t => t.status) (exec .encrypt (onStrings (str 2 0x7a7a) (str 2 0x7a7a))) = some 0x2b ∧
      after (fun t => t.status) (exec .encrypt (onStrings (str 2 0x7a7a) (str 1 0x20))) = some 0x27 := ⟨rfl, rfl⟩

set_option maxRecDepth 8000 in
/-- V-F17. -/
theorem test_DECRYPT :
    after (fun t => (t.sum, t.rnd, t.olen, outputString t, t.status))
        (exec .decrypt (onStrings (str 16 0x31323663366239326330363533613365) (str 32 0x3030313132323333343435353636373738383939616162626363646465656666))) =
      some (0, 32, 15, (str 15 0x313233343536373839616263646566), 0x02) := by decide

/-- V-F47, V-F46. -/
theorem test_DECRYPT_blank :
    after (fun t => (t.status, t.k)) (exec .decrypt { onStrings (str 1 0x30) (str 1 0x20) with k := keyA }) = some (0x27, keyA) ∧
      after (fun t => t.status) (exec .decrypt (onStrings [] (str 32 0x3030303030303030303030303030303030303030303030303030303030303030))) = some 0x17 := ⟨rfl, rfl⟩

/-- V-P1: an illegal word wins over everything. -/
theorem test_illegal_word :
    after (fun t => t.status) (coreStep { started 0 with dlen := 65, klen := 65 }) = some 0x0f := rfl

/-! ## HOST accesses -/

/-- V-H1, V-H2, V-H3. -/
theorem test_read_after_reset :
    readReg State.reset (regAt 0x01) = 0 ∧ readReg State.reset (regAt 0x0c) = 0 ∧
      readReg State.reset (regAt 0xc0) = 0 ∧ readReg State.reset (regAt 0x09) = 0 := ⟨rfl, rfl, rfl, rfl⟩

/-- V-H5, V-H6. -/
theorem test_read_nothing :
    memRead 0x00 base = 0 ∧ memRead 0x0d base = 0 ∧ memRead 0x3f base = 0 ∧ memRead 0xd0 base = 0 ∧ memRead 0xff base = 0 := by decide

/-- V-H7 to V-H11. -/
theorem test_write_ignored :
    memWrite 0x0d 0x12345678 base = base ∧ memWrite 0xff 1 base = base ∧ memWrite 0x01 0 base = base ∧
      memWrite 0x08 7 base = base ∧ memWrite 0x0c 3 base = base ∧ memWrite 0xc0 0x41 base = base := ⟨rfl, rfl, rfl, rfl, rfl, rfl⟩

/-- V-H12, V-H13, V-H14. -/
theorem test_write_low_byte :
    memRead 0x0a (memWrite 0x0a 0x103 base) = 3 ∧ memRead 0x0a (memWrite 0x0a 0x41 base) = 0x41 ∧
      memRead 0x40 (memWrite 0x40 0x141 base) = 0x41 := by decide

/-- V-H15. -/
theorem test_write_key :
    memRead 0x04 (memWrite 0x04 0xdeadbeef base) = 0xdeadbeef := by decide

/-- V-H16. -/
theorem test_status_read_keeps :
    serve (.read 0x01) { base with status := 0x2b } =
      { base with status := 0x2b, replies := [⟨0x01, 0x2b⟩] } := rfl

/-- V-H17. -/
theorem test_error_blocks_nothing :
    (memWrite 0x00 0x00000003 { base with status := 0x2b }).status = 0x01 := rfl

/-- V-H18, V-H19. -/
theorem test_busy_accesses :
    memRead 0x01 (started 4) = 0x01 ∧ memWrite 0x04 5 (started 4) = started 4 ∧ memWrite 0x00 5 (started 4) = started 4 := ⟨by decide, rfl, rfl⟩

/-- R54 with R61 (V-H20): the value of an open read stays for a read repeated with no step in between, and only then. -/
theorem test_busy_read_repeated :
    after (fun t => t.draws) (step { started 4 with inputs := [.access (.read 0x04), .access (.read 0x04)] }) = some 0 ∧
      after (fun t => t.draws) (step { started 4 with inputs := [.access (.read 0x04), .access (.read 0x05)] }) = some 1 ∧
      after (fun t => t.draws)
        (step { started 4 with inputs := [.access (.read 0x04), .coreProgress, .access (.read 0x04)] }) = some 1 := ⟨rfl, rfl, rfl⟩

/-- R60: a CORE step before the last leaves the command in flight. -/
theorem test_core_progress :
    step { started 4 with inputs := [.coreProgress, .coreTurn] } = .next { started 4 with inputs := [.coreTurn] } := rfl

/-! ## Witnesses: the hypotheses of the obligations can be met, each clause at the ends of its range -/

theorem test_witness_DecodeOfEncodeIsTheCommand :
    ∀ i : Instr, i.wf = true ∧ Laws.FormatC.Statement i :=
  by intro i; cases i <;> exact ⟨rfl, by unfold Laws.FormatC.Statement; decide⟩

theorem test_witness_IllegalWordEndsInProtocolError :
    (∀ i, decode 0x00000006 ≠ .ok i) ∧ (∀ i, decode 0xffffffff ≠ .ok i) ∧ base.busy = false ∧
      { base with inputs := [.access (.write 0x00 0x00000006), .coreTurn] : State }.inputs =
        .access (.write 0x00 0x00000006) :: .coreTurn :: [] :=
  ⟨by simp [decode, rsvdField, opField, opcode], by simp [decode, rsvdField], rfl, rfl⟩

theorem test_witness_CommandWriteLatchesAndStarts :
    base.busy = false ∧ (started 4).busy = true ∧ decode 0x00000001 = .ok .decKey :=
  ⟨rfl, rfl, rfl⟩

theorem test_witness_CoreStepRunsLatchedCommand :
    (started 9).busy = true ∧ (started 9).coreNext [] ∧
      State.coreNext { started 9 with inputs := [.coreTurn, .reset] } [.reset] ∧ decode (started 9).opLatch = .ok .decrypt :=
  ⟨rfl, .inr ⟨rfl, rfl⟩, .inl rfl, rfl⟩

theorem test_witness_FetchWordIsRunByTheNextStep :
    decode 0x00000009 = .ok .decrypt ∧ (base.withFetchWord 32 9).opLatch = 0x00000009 :=
  ⟨rfl, rfl⟩

theorem test_witness_CommandInFlightEnds :
    { started 4 with inputs := [.access (.read 0x01), .reset] : State }.busy = true :=
  rfl

theorem test_witness_ResetLeavesTheStatedValues :
    ({ started 4 with inputs := [.reset, .coreTurn] : State }.inputs = .reset :: [.coreTurn]) ∧
      ∃ t, step { started 4 with inputs := [.reset, .coreTurn] } = .next t ∧ t.status = 0x00 ∧
        (started 4).status ≠ 0x00 :=
  ⟨rfl, _, rfl, rfl, by decide⟩

theorem test_witness_FacadeCommandAfterResetIsInvalidArgument :
    ((0x00000008 : Word) = 0x00000008 ∨ (0x00000008 : Word) = 0x00000009) ∧
      ((0x00000009 : Word) = 0x00000008 ∨ (0x00000009 : Word) = 0x00000009) :=
  by decide

theorem test_witness_EveryStepKeepsTheInvariant :
    (started 4).Inv ∧ ∃ t, step (started 4) = .next t :=
  ⟨⟨by decide, .inl rfl, .inl ⟨rfl, rfl⟩, fun h => absurd h (by decide)⟩, _, rfl⟩

theorem test_witness_DecKeyWritesTheDecodedKey :
    64 < { base with klen := 65 : State }.klen.toNat ∧
      (onStrings [] (str 34 0x30783030313132323333343435353636373738383939616162626363646465656666)).klen.toNat ≤ 64 ∧
      decodeKeyWords ((onStrings [] (str 34 0x30783030313132323333343435353636373738383939616162626363646465656666)).kin.toList.take (onStrings [] (str 34 0x30783030313132323333343435353636373738383939616162626363646465656666)).klen.toNat) = .ok keyA ∧
      { base with klen := 64 : State }.klen.toNat ≤ 64 ∧
      ∀ w, decodeKeyWords ({ base with klen := 64 : State }.kin.toList.take 64) ≠ .ok w :=
  ⟨by decide, by decide, rfl, by decide, fun w h => by cases h⟩

set_option maxRecDepth 8000 in
theorem test_witness_DecBlkWritesTheDecodedHalves :
    64 < { base with dlen := 65 : State }.dlen.toNat ∧
      (onStrings (str 64 0x30303030303030303030303030303030303030303030303030303030303030303030303030303030303030303030303030303030303030303030303030303030) []).dlen.toNat ≤ 64 ∧
      decodeBlock ((onStrings (str 64 0x30303030303030303030303030303030303030303030303030303030303030303030303030303030303030303030303030303030303030303030303030303030) []).din.toList.take (onStrings (str 64 0x30303030303030303030303030303030303030303030303030303030303030303030303030303030303030303030303030303030303030303030303030303030) []).dlen.toNat) = .ok (0, 0) ∧
      { base with dlen := 64 : State }.dlen.toNat ≤ 64 ∧
      ∀ b, decodeBlock ({ base with dlen := 64 : State }.din.toList.take 64) ≠ .ok b :=
  ⟨by decide, by decide, rfl, by decide, fun b h => by cases h⟩

theorem test_witness_EncryptCommitsTheWholeCall :
    let s := onStrings (str 18 0x307830313233343536373839616263646566) (str 34 0x30783030313132323333343435353636373738383939616162626363646465656666)
    s.dlen.toNat ≤ 64 ∧ s.klen.toNat ≤ 64 ∧
      decodeKeyWords (s.kin.toList.take s.klen.toNat) = .ok keyA ∧
      decodeBlock (s.din.toList.take s.dlen.toNat) = .ok (0x01234567, 0x89abcdef) ∧ encryptBlock keyA 0x01234567 0x89abcdef = (0x126c6b92, 0xc0653a3e) ∧
      encodeBlock 0x126c6b92 0xc0653a3e = (str 16 0x31323663366239326330363533613365) :=
  ⟨by decide, by decide, rfl, rfl, by decide, by decide⟩

set_option maxRecDepth 8000 in
theorem test_witness_DecryptCommitsTheWholeCall :
    let s := onStrings (str 16 0x31323663366239326330363533613365) (str 32 0x3030313132323333343435353636373738383939616162626363646465656666)
    s.dlen.toNat ≤ 64 ∧ s.klen.toNat ≤ 64 ∧
      decodeKeyWords (s.kin.toList.take s.klen.toNat) = .ok keyA ∧
      decodeBlock (s.din.toList.take s.dlen.toNat) = .ok (0x126c6b92, 0xc0653a3e) ∧ decryptBlock keyA 0x126c6b92 0xc0653a3e = (0x01234567, 0x89abcdef) ∧
      encodeBlock 0x01234567 0x89abcdef = (str 15 0x313233343536373839616263646566) :=
  ⟨by decide, by decide, rfl, rfl, by decide, by decide⟩

theorem test_witness_CommandsEndOnlyInTheirStatuses :
    (started 6).busy = true ∧ (started 6).coreNext [] ∧ commandWordWf (started 6).opLatch = false :=
  ⟨rfl, .inr ⟨rfl, rfl⟩, rfl⟩

theorem test_witness_ErrorEntryChangesOnlyStatus :
    ∃ t, exec .decKey base = .next t ∧ t.status ≠ 0x02 :=
  ⟨_, rfl, by decide⟩

theorem test_witness_ErrorsAreReportedInFixedOrder :
    (64 < { base with dlen := 65 : State }.dlen.toNat) ∧
      ({ base with dlen := 64, klen := 65 : State }.dlen.toNat ≤ 64 ∧ 64 < { base with dlen := 64, klen := 65 : State }.klen.toNat) ∧
      (isBlank ((onStrings [] []).din.toList.take 0) = true) ∧
      (isBlank (str 2 0x7a7a) = false ∧ isBlank (str 1 0x20) = true) ∧
      (isBlank (str 2 0x7a7a) = false ∧ ∀ w, decodeKeyWords (str 2 0x7a7a) ≠ .ok w) ∧
      (isBlank (str 32 0x3030303030303030303030303030303030303030303030303030303030303030) = false ∧ (∃ w, decodeKeyWords (str 32 0x3030303030303030303030303030303030303030303030303030303030303030) = .ok w) ∧ ∀ b, decodeBlock (str 2 0x7a7a) ≠ .ok b) :=
  ⟨by decide, by decide, rfl, ⟨rfl, rfl⟩, ⟨rfl, fun w h => by cases h⟩, rfl, ⟨_, rfl⟩, fun b h => by cases h⟩

theorem test_witness_StatusIsStickyUntilTheNextCommand :
    stateField base.status = 2 ∧ stateField { base with status := 0x2f : State }.status = 3 ∧
      (∃ t, step base = .next t) ∧ ∀ rest, base.inputs ≠ .reset :: rest :=
  ⟨rfl, rfl, ⟨_, rfl⟩, fun rest h => by cases h⟩

theorem test_witness_EachCommandWritesOnlyItsRegisters :
    ∀ i : Instr, ∃ t, exec i base = .next t :=
  fun i => exec_next i base

theorem test_witness_CommandsReadOnlyTheirOperands :
    let s := onStrings (str 1 0x30) (str 1 0x20)
    let s' := { s with din := s.din.set 1 0x41, kin := s.kin.set 63 0x41, sum := 7 }
    s ≠ s' ∧ (s.dlen = s'.dlen ∧ ∀ j : Fin 64, j.val < s.dlen.toNat → s.din[j] = s'.din[j]) ∧
      (s.klen = s'.klen ∧ ∀ j : Fin 64, j.val < s.klen.toNat → s.kin[j] = s'.kin[j]) ∧
      s.l = s'.l ∧ s.r = s'.r ∧ s.k = s'.k :=
  ⟨by decide, by decide, by decide, rfl, rfl, rfl⟩

theorem test_witness_KeyChangesOnlyByTheseEvents :
    (∃ t, step { base with inputs := [.access (.write 0x07 5)] } = .next t ∧ t.k ≠ base.k) ∧
      ∃ t, step { onStrings [] (str 34 0x30783030313132323333343435353636373738383939616162626363646465656666) with opLatch := 1, status := 0x01 } = .next t ∧ t.k ≠ base.k :=
  ⟨⟨_, rfl, by decide⟩, _, rfl, by decide⟩

theorem test_witness_HostNeverChangesReadOnlyRegisters :
    ∃ t, step { base with inputs := [.access (.write 0xcf 5)] } = .next t :=
  ⟨_, rfl⟩

theorem test_witness_ReadsFollowTheRegisterMap :
    (∀ a ∈ ([0x01, 0x02, 0x03, 0x04, 0x05, 0x06, 0x07, 0x08, 0x09, 0x0a, 0x0b, 0x0c, 0x40, 0x7f, 0x80, 0xbf, 0xc0, 0xcf] : List RegIndex),
      State.busy { base with inputs := [.access (.read a)] } = false ∧ regAt a ≠ .unmapped) ∧
      (0x7f#8).toNat = 0x40 + (63 : Fin 64).val ∧ (0xbf#8).toNat = 0x80 + (63 : Fin 64).val ∧
      (0xcf#8).toNat = 0xc0 + (15 : Fin 16).val ∧ (0x40#8).toNat = 0x40 + (0 : Fin 64).val :=
  ⟨by decide, by decide, by decide, by decide, by decide⟩

theorem test_witness_WritesFollowTheRegisterMap :
    ∀ a ∈ ([0x02, 0x03, 0x04, 0x05, 0x06, 0x07, 0x0a, 0x0b, 0x40, 0x7f, 0x80, 0xbf] : List RegIndex),
      State.busy { base with inputs := [.access (.write a 0x141)] } = false ∧
        memWrite a 0x141 base ≠ base :=
  by decide

theorem test_witness_AccessesThatReachNoRegister :
    (∀ a ∈ ([0x0d, 0x3f, 0xd0, 0xff] : List RegIndex), (0x0D ≤ a.toNat ∧ a.toNat ≤ 0x3F) ∨ 0xD0 ≤ a.toNat) ∧
      (∀ a ∈ ([0x01, 0x08, 0x09, 0x0c, 0xc0, 0xcf] : List RegIndex),
        a = 0x01 ∨ a = 0x08 ∨ a = 0x09 ∨ a = 0x0C ∨ (0xC0 ≤ a.toNat ∧ a.toNat ≤ 0xCF)) ∧
      State.busy { base with inputs := [.access (.read 0xff)] } = false :=
  ⟨by decide, by decide, rfl⟩

theorem test_witness_BusyDropsEveryWrite :
    (started 4).Inv ∧ (started 4).busy = true :=
  ⟨test_witness_EveryStepKeepsTheInvariant.1, rfl⟩

theorem test_witness_AccessesAreIdempotent :
    (0xff#8 : RegIndex) ≠ 0x00 ∧
      State.busy { base with inputs := [.access (.read 0x40), .access (.read 0x40)] } = false ∧
      State.busy { started 4 with inputs := [.access (.read 0x40), .access (.read 0x40)] } = true :=
  ⟨by decide, rfl, rfl⟩

theorem test_witness_HexDigitClassesAndValues :
    isHex 0x30 ∧ isHex 0x39 ∧ isHex 0x41 ∧ isHex 0x46 ∧ isHex 0x61 ∧ isHex 0x66 ∧
      isHex 0x2f = false ∧ isHex 0x3a = false ∧ isHex 0x40 = false ∧ isHex 0x47 = false ∧ isHex 0x60 = false ∧
      isHex 0x67 = false :=
  by decide

theorem test_witness_HexNatIsTheDigitSum :
    allHex [] = true ∧ allHex (str 4 0x38396146) = true ∧ allHex (str 4 0x31326734) = false :=
  by decide

theorem test_witness_PaddingKeepsTheValue :
    ([] : Str).length % 2 = 0 ∧ (str 3 0x616263).length % 2 = 1 :=
  by decide

theorem test_witness_KeyStringFormat :
    decodeKeyWords (str 32 0x3030303030303030303030303030303030303030303030303030303030303031) = .ok ⟨0, 0, 0, 1⟩ ∧ ∀ k, decodeKeyWords (str 34 0x30303030303030303030303030303030303030303030303030303030303030303030) ≠ .ok k :=
  ⟨rfl, fun k h => by cases h⟩

theorem test_witness_DataStringFormat :
    decodeBlock (str 16 0x66666666666666666666666666666666) = .ok (0xffffffff, 0xffffffff) ∧ ∀ b, decodeBlock (str 17 0x3130303030303030303030303030303030) ≠ .ok b :=
  ⟨rfl, fun b h => by cases h⟩

theorem test_witness_OutputStringFormat :
    ((0 : Word) = 0 ∧ (0 : Word) = 0) ∧ ¬ ((1 : Word) = 0 ∧ (0 : Word) = 0) :=
  by decide

theorem test_witness_BlockCodecRoundTrip :
    decodeBlock (str 6 0x307830433644) = .ok (0, 0xc6d) ∧ canonical (str 6 0x307830433644) = (str 3 0x633664) ∧ canonical (str 2 0x3030) = (str 1 0x30) :=
  ⟨rfl, rfl, rfl⟩

theorem test_witness_WordArithmeticIsModular :
    0 ≤ 31 ∧ 31 ≤ 31 ∧ 0 < 32 ∧ 31 < 32 :=
  by decide

theorem test_witness_SumSequenceClosedForm :
    (repeatRounds (encRound keyA) 1 ⟨0, 0, 0⟩).sum = 0x9e3779b9 ∧
      (repeatRounds (encRound keyA) 32 ⟨0, 0, 0⟩).sum = 0xc6ef3720 ∧
      (repeatRounds (decRound keyA) (1 - 1) ⟨0, 0, 0xc6ef3720⟩).sum = 0xc6ef3720 ∧
      (repeatRounds (decRound keyA) (32 - 1) ⟨0, 0, 0xc6ef3720⟩).sum = 0x9e3779b9 :=
  by decide

theorem test_witness_FacadeCommandEqualsThePrimitiveSequence :
    (∃ t, t.status = 0x02 ∧ exec .encrypt (onStrings (str 1 0x30) (str 32 0x3030303030303030303030303030303030303030303030303030303030303030)) = .next t) ∧
      ∃ t, t.status = 0x02 ∧ exec .decrypt (onStrings (str 1 0x30) (str 32 0x3030303030303030303030303030303030303030303030303030303030303030)) = .next t :=
  ⟨⟨_, rfl, rfl⟩, _, rfl, rfl⟩

theorem test_witness_CallsRoundTripOnStrings :
    decodeKeyWords (str 34 0x30783030313132323333343435353636373738383939616162626363646465656666) = .ok keyA ∧ decodeBlock (str 18 0x307830313233343536373839616263646566) = .ok (0x01234567, 0x89abcdef) :=
  ⟨rfl, rfl⟩

theorem test_witness_PrefixAndLetterCaseAreNoOps :
    stripHexPrefix (str 2 0x3031) = (str 2 0x3031) ∧ stripHexPrefix (str 2 0x4646) = (str 2 0x4646) ∧ isBlank (str 2 0x3031) = false ∧
      isBlank (str 2 0x4646) = false ∧ (str 2 0x3078) ∈ optionalPrefixes :=
  by decide

theorem test_witness_HostCallComputesTheFacade :
    let s := { base with inputs := callInputs .encrypt (str 1 0x30) (str 32 0x3030303030303030303030303030303030303030303030303030303030303030) 2 ++ [] }
    s.busy = false ∧ stringFits (str 1 0x30) = true ∧ stringFits (str 64 0x30303030303030303030303030303030303030303030303030303030303030303030303030303030303030303030303030303030303030303030303030303030) = true ∧
      s.inputs = callInputs .encrypt (str 1 0x30) (str 32 0x3030303030303030303030303030303030303030303030303030303030303030) 2 ++ [] :=
  ⟨rfl, rfl, rfl, rfl⟩

end Sys2Proof.Tests
end

section
/-! The step is total (rules R7, R53, R188; log entry 8): whichever event comes next, it answers a next state. -/

namespace Sys2Proof.Machine

/-- The CORE's step answers whether a command is in flight or not, and whether its word is legal or not. -/
theorem coreStep_next (s : State) : ∃ t, coreStep s = .next t := by
  cases hb : s.busy with
  | false => exact ⟨s, coreStep_idle hb⟩
  | true =>
    cases hd : decode s.opLatch with
    | ok i => rw [coreStep_ok hb hd]; exact exec_next i s
    | error e => exact ⟨raise raiseCommand s, coreStep_illegal hb hd⟩

/-- Each of the four events answers; only the CORE's turn needs an argument. -/
theorem takeInput_next (x : Input) (s : State) : ∃ t, takeInput x s = .next t := by
  cases x with
  | access a => exact ⟨serve a s, rfl⟩
  | coreProgress => exact ⟨s, rfl⟩
  | coreTurn => exact coreStep_next s
  | reset => exact ⟨applyReset s, rfl⟩

/-- Settles O9, by the event that comes next: a listed input, or the CORE's step when none is left. -/
theorem everyStepAnswersNext : Obligations.EveryStepAnswersNext := by
  intro s
  cases hi : s.inputs with
  | nil => rw [step_nil hi]; exact coreStep_next s
  | cons x rest => rw [step_cons hi]; exact takeInput_next x _

end Sys2Proof.Machine
end

section
/-! What an accepted command write and the CORE's turn do (rules R27, R60; log entries 3 and 6). -/

namespace Sys2Proof.Machine

variable {s t : State} {w : Word} {i : Instr} {rest : List Input}

/-! ## A write to `CMD`, and the turn that runs the accepted word -/

theorem regAt_cmd : regAt 0x00 = .cmd := (regAt_eq_cmd_iff 0x00).2 rfl

theorem step_write_cmd (hb : s.busy = false) (hi : s.inputs = .access (.write 0x00 w) :: rest) :
    step s = .next { s with inputs := rest, opLatch := w, status := statusBusy } := by
  rw [step_write hb hi, regAt_cmd]; rfl

theorem step_write_busy {a : RegIndex} (hb : s.busy = true) (hi : s.inputs = .access (.write a w) :: rest) :
    step s = .next { s with inputs := rest } := by
  have h : memWrite a w { s with inputs := rest } = { s with inputs := rest } := memWrite_busy a w hb
  rw [step_cons hi]
  exact congrArg _ h

theorem step_turn_ok (hb : s.busy = true) (hn : s.coreNext rest) (hd : decode s.opLatch = .ok i) :
    step s = exec i { s with inputs := rest } := by
  rw [step_core hn]
  exact coreStep_ok hb hd

/-- An accepted word and the CORE's turn after it are together the meaning of the command. -/
theorem runSteps_command (hb : s.busy = false) (hd : decode w = .ok i)
    (hi : s.inputs = .access (.write 0x00 w) :: .coreTurn :: rest) :
    runSteps 2 s = exec i { s with inputs := rest, opLatch := w, status := statusBusy } := by
  rw [runSteps_succ (step_write_cmd hb hi), runSteps_one]
  exact step_turn_ok rfl (.inl rfl) hd

theorem memRead_cmd (hb : s.busy = false) : memRead 0x00 s = 0 := by
  have ho : readIsOpen 0x00 s = false := by rw [readIsOpen, hb]; rfl
  rw [memRead, ho, regAt_cmd]; rfl

/-- No read shows `OPLATCH`: neither a stated value nor an open one depends on it. -/
theorem memRead_opLatch (a : RegIndex) (s : State) (v : Word) :
    memRead a { s with opLatch := v } = memRead a s := by
  have h : readReg { s with opLatch := v } (regAt a) = readReg s (regAt a) :=
    readReg_congr s s.inputs s.replies v (regAt a)
  simp only [memRead, h]; rfl

/-- Settles O6: a write to `CMD` by whether the CORE is `BUSY`, then the turn that runs the latched word,
then the two facts about reads. -/
theorem commandWriteLatchesAndStarts : Obligations.CommandWriteLatchesAndStarts := by
  intro s w rest
  refine ⟨fun hi => ⟨fun hb => step_write_cmd hb hi, fun hb => step_write_busy hb hi⟩, ?_, memRead_cmd, ?_⟩
  · intro i hb hd hi
    exact runSteps_command hb hd hi
  · intro a v
    exact memRead_opLatch a s v

/-- Settles O7: the CORE's turn, whether it is listed or no input is left. -/
theorem coreStepRunsLatchedCommand : Obligations.CoreStepRunsLatchedCommand := by
  intro s i rest hb hn hd
  exact step_turn_ok hb hn hd

/-! ## What the CORE's turn and a HOST access can do -/

/-- Everything a CORE turn can do: nothing while no command is in flight, the meaning of the latched
command, or the error of an illegal word. -/
theorem coreStep_cases (h : coreStep s = .next t) :
    (s.busy = false ∧ t = s) ∨
    (∃ i, s.busy = true ∧ decode s.opLatch = .ok i ∧ exec i s = .next t) ∨
    (∃ e, s.busy = true ∧ decode s.opLatch = .error e ∧ t = raise raiseCommand s) := by
  cases hb : s.busy with
  | false =>
    rw [coreStep_idle hb] at h
    cases h; exact .inl ⟨rfl, rfl⟩
  | true =>
    cases hd : decode s.opLatch with
    | ok i =>
      rw [coreStep_ok hb hd] at h
      exact .inr (.inl ⟨i, rfl, rfl, h⟩)
    | error e =>
      rw [coreStep_illegal hb hd] at h
      cases h; exact .inr (.inr ⟨e, rfl, rfl, rfl⟩)

theorem serve_write (a : RegIndex) (v : Word) (s : State) : serve (.write a v) s = memWrite a v s := rfl

theorem serve_readOnly (x : HostAccess) (s : State) :
    (serve x s).sum = s.sum ∧ (serve x s).rnd = s.rnd ∧ (serve x s).olen = s.olen ∧
      (serve x s).dout = s.dout := by
  cases x with
  | read a => exact ⟨rfl, rfl, rfl, rfl⟩
  | write a v =>
    rw [serve_write]
    rcases memWrite_cases a v s with h | ⟨-, -, h⟩ | ⟨-, -, -, -, hsum, hrnd, holen, hdout, -⟩
    · rw [h]; exact ⟨rfl, rfl, rfl, rfl⟩
    · rw [h]; exact ⟨rfl, rfl, rfl, rfl⟩
    · exact ⟨hsum, hrnd, holen, hdout⟩

/-- An access leaves `STATUS` and `OPLATCH`, or starts a command. -/
theorem serve_status (x : HostAccess) (s : State) :
    ((serve x s).status = s.status ∧ (serve x s).opLatch = s.opLatch) ∨
      (serve x s).status = statusBusy := by
  cases x with
  | read a => exact .inl ⟨rfl, rfl⟩
  | write a v =>
    rw [serve_write]
    rcases memWrite_cases a v s with h | ⟨-, -, h⟩ | ⟨-, -, hstatus, hlatch, -⟩
    · rw [h]; exact .inl ⟨rfl, rfl⟩
    · rw [h]; exact .inr rfl
    · exact .inl ⟨hstatus, hlatch⟩

/-- The one access that changes `K` is a write to one of its four indices while not `BUSY`. -/
theorem eq_write_of_serve_k_ne {x : HostAccess} (h : (serve x s).k ≠ s.k) :
    s.busy = false ∧ ∃ a v, x = .write a v ∧ 0x04 ≤ a.toNat ∧ a.toNat ≤ 0x07 := by
  cases x with
  | read a => exact absurd rfl h
  | write a v =>
    rw [serve_write] at h
    rcases memWrite_cases a v s with e | ⟨-, -, e⟩ | ⟨hb, -, -, -, -, -, -, -, hk | ⟨h4, h7⟩⟩
    · rw [e] at h; exact absurd rfl h
    · rw [e] at h; exact absurd rfl h
    · exact absurd hk h
    · exact ⟨hb, a, v, rfl, h4, h7⟩

/-- Settles O29, by what one access can do. -/
theorem hostNeverChangesReadOnlyRegisters : Obligations.HostNeverChangesReadOnlyRegisters := by
  intro s t x rest hi h
  rw [step_cons hi] at h
  cases h
  exact serve_readOnly x { s with inputs := rest }

end Sys2Proof.Machine
end

section
/-! What each command may write (rules R20, R83, R154) and which errors it can raise (rules R160 to R163). -/

namespace Sys2Proof.Machine

variable {s t : State} {i : Instr}

/-! ## Frames -/

theorem decKey_frame (h : exec .decKey s = .next t) : t = { s with k := t.k, status := t.status } := by
  rw [exec_decKey] at h
  rcases finish_cases h with ⟨a, -, rfl⟩ | ⟨e, -, rfl⟩ <;> rfl

theorem decBlk_frame (h : exec .decBlk s = .next t) :
    t = { s with l := t.l, r := t.r, status := t.status } := by
  rw [exec_decBlk] at h
  rcases finish_cases h with ⟨a, -, rfl⟩ | ⟨e, -, rfl⟩ <;> rfl

theorem encBlk_frame (h : exec .encBlk s = .next t) :
    t = { s with olen := t.olen, dout := t.dout, status := t.status } := by
  rw [exec_encBlk] at h
  rcases finish_cases h with ⟨a, -, rfl⟩ | ⟨e, -, rfl⟩ <;> rfl

theorem finish_setRounds_frame {x : Except Raise RoundState} (h : finish x setRounds s = .next t) :
    t = { s with l := t.l, r := t.r, sum := t.sum, rnd := t.rnd, status := t.status } := by
  rcases finish_cases h with ⟨a, -, rfl⟩ | ⟨e, -, rfl⟩ <;> rfl

theorem rounds_frame (hi : i = .encR ∨ i = .decR) (h : exec i s = .next t) :
    t = { s with l := t.l, r := t.r, sum := t.sum, rnd := t.rnd, status := t.status } := by
  rcases hi with rfl | rfl
  · rw [exec_encR] at h; exact finish_setRounds_frame h
  · rw [exec_decR] at h; exact finish_setRounds_frame h

theorem facade_frame (hi : i = .encrypt ∨ i = .decrypt) (h : exec i s = .next t) :
    t = { s with k := t.k, l := t.l, r := t.r, sum := t.sum, rnd := t.rnd, olen := t.olen,
                 dout := t.dout, status := t.status } := by
  obtain ⟨d, rfl⟩ := eq_command hi
  rw [exec_facade] at h
  rcases finish_cases h with ⟨a, -, rfl⟩ | ⟨e, -, rfl⟩ <;> rfl

/-- Settles O26: one frame per command, or per pair of commands that commit alike. -/
theorem eachCommandWritesOnlyItsRegisters : Obligations.EachCommandWritesOnlyItsRegisters := by
  intro s t
  exact ⟨decKey_frame, decBlk_frame, encBlk_frame, fun _ => rounds_frame, fun _ => facade_frame⟩

/-! ## One register -/

/-- A command that changes `K` is one of the three that decode a key string, and has completed. -/
theorem exec_k_ne (h : exec i s = .next t) (hk : t.k ≠ s.k) :
    t.status = statusDone ∧ (i = .decKey ∨ i = .encrypt ∨ i = .decrypt) := by
  constructor
  · rcases exec_ends h with hd | ⟨e, rfl⟩
    · exact hd
    · exact absurd rfl hk
  · cases i with
    | decKey => exact .inl rfl
    | encrypt => exact .inr (.inl rfl)
    | decrypt => exact .inr (.inr rfl)
    | decBlk => exact absurd (congrArg State.k (decBlk_frame h)) hk
    | encBlk => exact absurd (congrArg State.k (encBlk_frame h)) hk
    | encR => exact absurd (congrArg State.k (rounds_frame (.inl rfl) h)) hk
    | decR => exact absurd (congrArg State.k (rounds_frame (.inr rfl) h)) hk

theorem finish_rnd {α : Type} {x : Except Raise α} {c : α → State → State}
    (hc : ∀ a, (c a s).rnd = BitVec.ofNat 6 Config.ROUNDS) (h : finish x c s = .next t) :
    t.rnd = s.rnd ∨ t.rnd = 32 := by
  rcases finish_cases h with ⟨a, -, rfl⟩ | ⟨e, -, rfl⟩
  · exact .inr (hc a)
  · exact .inl rfl

/-- A command leaves `RND` or commits the number of rounds (R24). -/
theorem exec_rnd (h : exec i s = .next t) : t.rnd = s.rnd ∨ t.rnd = 32 := by
  cases i with
  | decKey => exact .inl (by rw [decKey_frame h])
  | decBlk => exact .inl (by rw [decBlk_frame h])
  | encBlk => exact .inl (by rw [encBlk_frame h])
  | encR => rw [exec_encR] at h; exact finish_rnd (fun _ => rfl) h
  | decR => rw [exec_decR] at h; exact finish_rnd (fun _ => rfl) h
  | encrypt => exact finish_rnd (setFacade_rnd s .encrypt) (exec_facade .encrypt s ▸ h)
  | decrypt => exact finish_rnd (setFacade_rnd s .decrypt) (exec_facade .decrypt s ▸ h)

/-! ## Which errors -/

theorem reportedError_of_decKey {e : Raise} (h : (keyString s).bind decodeKeyWords = .error e) :
    reportedError (errorStatus e) = some e := by
  unfold keyString at h
  rcases stringOperand_cases s.kin s.klen .key with ⟨-, hs⟩ | ⟨-, hs⟩ <;> rw [hs] at h
  · cases h; rfl
  · rcases decodeKeyWords_cases (s.kin.toList.take s.klen.toNat) with ⟨w, hw⟩ | hw
    · exact absurd (hw.symm.trans h) (by simp)
    · cases hw.symm.trans h; rfl

theorem reportedError_of_decBlk {e : Raise} (h : (dataString s).bind decodeBlock = .error e) :
    reportedError (errorStatus e) = some e := by
  unfold dataString at h
  rcases stringOperand_cases s.din s.dlen .data with ⟨-, hs⟩ | ⟨-, hs⟩ <;> rw [hs] at h
  · cases h; rfl
  · rcases decodeBlock_cases (s.din.toList.take s.dlen.toNat) with ⟨b, hb⟩ | hb
    · exact absurd (hb.symm.trans h) (by simp)
    · cases hb.symm.trans h; rfl

theorem finish_ends_reported {α : Type} {x : Except Raise α} {c : α → State → State}
    (hx : ∀ e, x = .error e → reportedError (errorStatus e) = some e) (h : finish x c s = .next t) :
    t.status = statusDone ∨ ∃ e, t = raise e s ∧ reportedError (errorStatus e) = some e := by
  rcases finish_cases h with ⟨a, -, rfl⟩ | ⟨e, he, rfl⟩
  · exact .inl rfl
  · exact .inr ⟨e, rfl, hx e he⟩

/-- `exec_ends`, and the error is one that `STATUS` reports: no command pairs a kind with a parameter that
T-R79 does not list. -/
theorem exec_ends_reported (h : exec i s = .next t) :
    t.status = statusDone ∨ ∃ e, t = raise e s ∧ reportedError (errorStatus e) = some e := by
  cases i with
  | decKey => rw [exec_decKey] at h; exact finish_ends_reported (fun _ => reportedError_of_decKey) h
  | decBlk => rw [exec_decBlk] at h; exact finish_ends_reported (fun _ => reportedError_of_decBlk) h
  | encBlk => rw [exec_encBlk] at h; exact finish_ends_reported (fun _ he => by cases he) h
  | encR => rw [exec_encR] at h; exact finish_ends_reported (fun _ he => by cases he) h
  | decR => rw [exec_decR] at h; exact finish_ends_reported (fun _ he => by cases he) h
  | encrypt =>
    exact finish_ends_reported (fun _ => reportedError_of_facadeOperands) (exec_facade .encrypt s ▸ h)
  | decrypt =>
    exact finish_ends_reported (fun _ => reportedError_of_facadeOperands) (exec_facade .decrypt s ▸ h)

/-! ## The word that selects a command -/

theorem setWidth_eq_encode_of_opcode : ∀ op : BitVec 4, ∀ i ∈ opcode op, op.setWidth 32 = encode i := by
  decide

/-- Only one word decodes to a command (R71): with `RSVD` 0 the word is its `OP`, of which 16 values
remain. -/
theorem eq_encode_of_decode {w : Word} (h : decode w = .ok i) : w = encode i := by
  unfold decode at h
  split at h
  · cases h
  next hr =>
  have hw : w = (opField w).setWidth 32 := by
    have hz : rsvdField w = 0 := not_not.mp hr
    have hn : w.toNat / 16 % 2 ^ 28 = 0 := by
      simpa [rsvdField, Nat.shiftRight_eq_div_pow] using congrArg BitVec.toNat hz
    apply BitVec.eq_of_toNat_eq
    simp [opField]
    omega
  split at h
  next hj =>
    cases h
    exact hw.trans (setWidth_eq_encode_of_opcode (opField w) _ hj)
  next => cases h

end Sys2Proof.Machine
end

section
/-! Commands depend on their operands alone (rules R29, R34, R83). -/

namespace Sys2Proof.Machine

/-- Two commands that end with the same result and the same commit, from whatever two states: the same
`STATUS`, and on completion the same values committed. -/
theorem finish_same {α : Type} (x : Except Raise α) (c : α → State → State) (s s' : State) :
    ∃ t t', finish x c s = .next t ∧ finish x c s' = .next t' ∧ t.status = t'.status ∧
      (t.status = statusDone → ∃ a, t = complete (c a s) ∧ t' = complete (c a s')) := by
  cases x with
  | ok a => exact ⟨_, _, rfl, rfl, rfl, fun _ => ⟨a, rfl, rfl⟩⟩
  | error e => exact ⟨_, _, rfl, rfl, rfl, fun h => absurd h (errorStatus_ne_done e)⟩

/-- `ENCR` and `DECR` cannot fail, and commit nothing but the state of the last round. -/
theorem finish_setRounds_same (x : RoundState) (s s' : State) :
    ∃ t t', finish (.ok x) setRounds s = .next t ∧ finish (.ok x) setRounds s' = .next t' ∧
      t.status = t'.status ∧ t.l = t'.l ∧ t.r = t'.r ∧ t.sum = t'.sum ∧ t.rnd = t'.rnd :=
  ⟨_, _, rfl, rfl, rfl, rfl, rfl, rfl, rfl⟩

theorem facadeOperands_congr (d : Direction) {s s' : State} (hd : dataString s = dataString s')
    (hk : keyString s = keyString s') : facadeOperands d s = facadeOperands d s' := by
  rw [facadeOperands, facadeOperands, hd, hk]

/-- Settles O27: each command is `finish` of a function of its operands, so equal operands give equal results,
and `finish_same` says what equal results give. -/
theorem commandsReadOnlyTheirOperands : Obligations.CommandsReadOnlyTheirOperands := by
  intro s s' sameData sameKey
  have hdata : sameData → dataString s = dataString s' := stringOperand_congr
  have hkey : sameKey → keyString s = keyString s' := stringOperand_congr
  refine ⟨fun h => ?_, fun h => ?_, ?_, ?_, ?_⟩
  · rw [exec_decKey, exec_decKey, ← hkey h]
    obtain ⟨t, t', ht, ht', hs, hc⟩ := finish_same ((keyString s).bind decodeKeyWords) setKey s s'
    refine ⟨t, t', ht, ht', hs, fun hd => ?_⟩
    obtain ⟨a, rfl, rfl⟩ := hc hd
    rfl
  · rw [exec_decBlk, exec_decBlk, ← hdata h]
    obtain ⟨t, t', ht, ht', hs, hc⟩ :=
      finish_same ((dataString s).bind decodeBlock) (fun b => setBlock b.1 b.2) s s'
    refine ⟨t, t', ht, ht', hs, fun hd => ?_⟩
    obtain ⟨a, rfl, rfl⟩ := hc hd
    exact ⟨rfl, rfl⟩
  · rintro ⟨hl, hr⟩
    rw [exec_encBlk, exec_encBlk, ← hl, ← hr]
    exact ⟨_, _, rfl, rfl, rfl, rfl, rfl⟩
  · rintro i (rfl | rfl) ⟨hk, hl, hr⟩
    · rw [exec_encR, exec_encR, ← hk, ← hl, ← hr]
      exact finish_setRounds_same _ s s'
    · rw [exec_decR, exec_decR, ← hk, ← hl, ← hr]
      exact finish_setRounds_same _ s s'
  · rintro i hi ⟨hd, hk⟩
    obtain ⟨d, rfl⟩ := eq_command hi
    rw [exec_facade, exec_facade, ← facadeOperands_congr d (hdata hd) (hkey hk)]
    obtain ⟨t, t', ht, ht', hs, hc⟩ := finish_same (facadeOperands d s) (setFacade d) s s'
    refine ⟨t, t', ht, ht', hs, fun hd => ?_⟩
    obtain ⟨x, rfl, rfl⟩ := hc hd
    exact ⟨rfl, rfl, rfl, rfl, rfl, rfl, rfl⟩

end Sys2Proof.Machine
end

section
/-! The invariant (rules R24, R26, R28, R30, R79): it holds after every reset and every step keeps it. -/

namespace Sys2Proof.Machine

variable {s t : State}

theorem resetAt_inv (n : Nat) : (State.resetAt n).Inv where
  status_legal := List.mem_cons_self
  rnd_legal := .inl rfl
  output_legal := .inl ⟨rfl, rfl⟩
  idle_fresh _ := ⟨rfl, rfl, rfl, rfl⟩

/-- Settles O13: every field the invariant reads has its value of T-R35. -/
theorem resetMeetsTheInvariant : Obligations.ResetMeetsTheInvariant :=
  ⟨resetAt_inv 0, resetAt_inv⟩

theorem mem_legalStatuses_of_reportedError {b : BitVec 6} {e : Raise} (h : reportedError b = some e) :
    b ∈ legalStatuses := by
  have hall : ∀ b, (reportedError b).isSome = true → b ∈ legalStatuses := by decide
  exact hall b (by rw [h]; rfl)

theorem applyReset_inv (s : State) : (applyReset s).Inv :=
  (resetAt_inv s.draws).congr rfl rfl rfl rfl rfl

theorem State.Inv.with_inputs (h : s.Inv) (rest : List Input) : State.Inv { s with inputs := rest } :=
  h.congr rfl rfl rfl rfl rfl

/-- A reported error keeps the invariant: it changes `STATUS` alone, and not to `IDLE`. -/
theorem State.Inv.raise (h : s.Inv) {e : Raise} (he : reportedError (errorStatus e) = some e) :
    (raise e s).Inv where
  status_legal := mem_legalStatuses_of_reportedError he
  rnd_legal := h.rnd_legal
  output_legal := h.output_legal
  idle_fresh hi := absurd hi (errorStatus_ne_idle e)

theorem exec_keeps_inv {i : Instr} (hs : s.Inv) (h : exec i s = .next t) : t.Inv := by
  rcases exec_ends_reported h with hd | ⟨e, rfl, he⟩
  · refine ⟨?_, ?_, ?_, ?_⟩
    · rw [hd]; decide
    · rcases exec_rnd h with hr | hr
      · rw [hr]; exact hs.rnd_legal
      · exact .inr hr
    · rcases exec_output h with ⟨ho, hb⟩ | hnew
      · rw [ho, hb]; exact hs.output_legal
      · exact .inr hnew
    · intro hi
      exact absurd (hd.symm.trans hi) (by decide)
  · exact hs.raise he

theorem coreStep_keeps_inv (hs : s.Inv) (h : coreStep s = .next t) : t.Inv := by
  rcases coreStep_cases h with ⟨-, rfl⟩ | ⟨i, -, -, hx⟩ | ⟨e, -, -, rfl⟩
  · exact hs
  · exact exec_keeps_inv hs hx
  · exact hs.raise rfl

theorem serve_keeps_inv (hs : s.Inv) (x : HostAccess) : (serve x s).Inv := by
  obtain ⟨-, hrnd, holen, hdout⟩ := serve_readOnly x s
  rcases serve_status x s with ⟨hstatus, hlatch⟩ | hbusy
  · exact hs.congr hstatus hrnd holen hdout hlatch
  · refine ⟨?_, ?_, ?_, ?_⟩
    · rw [hbusy]; decide
    · rw [hrnd]; exact hs.rnd_legal
    · rw [holen, hdout]; exact hs.output_legal
    · intro hi
      exact absurd (hbusy.symm.trans hi) (by decide)

/-- Settles O14, by the event that the step takes. -/
theorem everyStepKeepsTheInvariant : Obligations.EveryStepKeepsTheInvariant := by
  intro s t hs h
  rcases step_cases h with ⟨rest, -, hc⟩ | ⟨rest, -, rfl⟩ | ⟨x, rest, -, rfl⟩ | ⟨rest, -, rfl⟩
  · exact coreStep_keeps_inv (hs.with_inputs rest) hc
  · exact hs.with_inputs rest
  · exact serve_keeps_inv (hs.with_inputs rest) x
  · exact applyReset_inv _

end Sys2Proof.Machine
end

section
/-! Which events lead to `IDLE` and which change `K` (rules R21, R35, R180), and the first command after a
reset (rule R36). -/

namespace Sys2Proof.Machine

variable {s t : State}

/-! ## `IDLE` -/

theorem coreStep_status (h : coreStep s = .next t) : t.status = s.status ∨ t.status ≠ statusIdle := by
  rcases coreStep_cases h with ⟨-, rfl⟩ | ⟨i, -, -, hx⟩ | ⟨e, -, -, rfl⟩
  · exact .inl rfl
  · rcases exec_ends hx with hd | ⟨e, rfl⟩
    · exact .inr (by rw [hd]; decide)
    · exact .inr (errorStatus_ne_idle e)
  · exact .inr (errorStatus_ne_idle raiseCommand)

/-- Only a reset leads to `IDLE`. -/
theorem reset_of_step_idle (h : step s = .next t) (ht : t.status = statusIdle)
    (hs : s.status ≠ statusIdle) : ∃ rest, s.inputs = .reset :: rest := by
  rcases step_cases h with ⟨rest, -, hc⟩ | ⟨rest, -, rfl⟩ | ⟨x, rest, -, rfl⟩ | ⟨rest, hi, -⟩
  · rcases coreStep_status hc with he | hne
    · exact absurd (he.symm.trans ht) hs
    · exact absurd ht hne
  · exact absurd ht hs
  · rcases serve_status x { s with inputs := rest } with ⟨he, -⟩ | hb
    · exact absurd (he.symm.trans ht) hs
    · exact absurd (hb.symm.trans ht) (by decide)
  · exact ⟨rest, hi⟩

theorem applyReset_busy (s : State) : (applyReset s).busy = false := rfl

/-- Settles O11: the reset state field by field, the idle turn and the accepted write after it, and
`reset_of_step_idle`. -/
theorem resetLeavesTheStatedValues : Obligations.ResetLeavesTheStatedValues := by
  refine ⟨fun s rest hi => ?_, fun s t h => reset_of_step_idle h, rfl, rfl, rfl, rfl, rfl, rfl, rfl⟩
  refine ⟨applyReset { s with inputs := rest }, step_cons hi, rfl, rfl, rfl, rfl, rfl, rfl, rfl, rfl, rfl,
    ?_, ?_⟩
  · rintro rest' rfl
    rw [step_core (rest := rest') (.inl rfl)]
    exact coreStep_idle rfl
  · rintro w rest' rfl
    exact step_write_cmd (applyReset_busy _) rfl

theorem exec_facade_empty_data (d : Direction) (hd : s.dlen = 0) (hk : s.klen = 0) :
    exec d.command s = .next (raise ⟨.invalidArgument, .data⟩ s) := by
  have hx : facadeOperands d s = .error ⟨.invalidArgument, .data⟩ := by
    rw [facadeOperands_eq d s (by simp [hd]) (by simp [hk]), hd]; rfl
  rw [exec_facade, hx, finish_error]

/-- Settles O12: the lengths are 0 after a reset, so the data string is empty. -/
theorem facadeCommandAfterResetIsInvalidArgument :
    Obligations.FacadeCommandAfterResetIsInvalidArgument := by
  intro n w rest hw
  obtain ⟨d, hd⟩ : ∃ d : Direction, decode w = .ok d.command := by
    rcases hw with rfl | rfl
    · exact ⟨.encrypt, rfl⟩
    · exact ⟨.decrypt, rfl⟩
  rw [runSteps_command rfl hd rfl, exec_facade_empty_data d rfl rfl]
  rfl

/-! ## `K` -/

theorem coreStep_k_ne (h : coreStep s = .next t) (hk : t.k ≠ s.k) :
    s.busy = true ∧ t.status = statusDone ∧
      (s.opLatch = encode .decKey ∨ s.opLatch = encode .encrypt ∨ s.opLatch = encode .decrypt) := by
  rcases coreStep_cases h with ⟨-, rfl⟩ | ⟨i, hb, hd, hx⟩ | ⟨e, -, -, rfl⟩
  · exact absurd rfl hk
  · obtain ⟨hdone, hi⟩ := exec_k_ne hx hk
    refine ⟨hb, hdone, ?_⟩
    rw [eq_encode_of_decode hd]
    rcases hi with rfl | rfl | rfl
    · exact .inl rfl
    · exact .inr (.inl rfl)
    · exact .inr (.inr rfl)
  · exact absurd rfl hk

/-- Settles O28, by the event that the step takes. -/
theorem keyChangesOnlyByTheseEvents : Obligations.KeyChangesOnlyByTheseEvents := by
  intro s t h hk
  rcases step_cases h with ⟨rest, hn, hc⟩ | ⟨rest, -, rfl⟩ | ⟨x, rest, hi, rfl⟩ | ⟨rest, hi, -⟩
  · obtain ⟨hb, hdone, hw⟩ := coreStep_k_ne hc hk
    exact .inr (.inl ⟨hb, hdone, ⟨rest, hn⟩, hw⟩)
  · exact absurd rfl hk
  · obtain ⟨hb, a, v, rfl, h4, h7⟩ := eq_write_of_serve_k_ne (s := { s with inputs := rest }) hk
    exact .inl ⟨hb, a, v, rest, hi, h4, h7⟩
  · exact .inr (.inr ⟨rest, hi⟩)

end Sys2Proof.Machine
end

section
/-! One access of the host register space: what a read returns, what a write stores, which accesses reach no
register, and what changes while `BUSY` (rules R51 to R54, R61). -/

namespace Sys2Proof.Machine

variable {s : State} {a : RegIndex} {rest : List Input}

/-! ## Reads -/

/-- Settles O30: the value is `readReg` of the register that the index leads to, which for the registers
narrower than a word is their zero extension. -/
theorem readsFollowTheRegisterMap : Obligations.ReadsFollowTheRegisterMap := by
  intro s a rest hb hi
  refine ⟨readReg s (regAt a), step_read hb hi, ?status, ?l, ?r, ?k0, ?k1, ?k2, ?k3, ?sum, ?rnd, ?dlen,
    ?klen, ?olen, ?din, ?kin, ?dout⟩
  case l | r | k0 | k1 | k2 | k3 | sum => rintro rfl; rfl
  case status | rnd | dlen | klen | olen => rintro rfl; exact setWidth_toNat _ (by decide)
  case din => intro j h; rw [regAt_din a j h]; exact setWidth_toNat _ (by decide)
  case kin => intro j h; rw [regAt_kin a j h]; exact setWidth_toNat _ (by decide)
  case dout => intro j h; rw [regAt_dout a j h]; exact setWidth_toNat _ (by decide)

/-- The value of `STATUS` is stated even while `BUSY`. -/
theorem readIsOpen_status (s : State) : readIsOpen 0x01 s = false :=
  Bool.and_false s.busy

theorem readIsOpen_of_not_busy (a : RegIndex) (hb : s.busy = false) : readIsOpen a s = false := by
  simp [readIsOpen, hb]

/-- Every read, `BUSY` or not: it is recorded, and changes nothing else but the counter of free values. -/
theorem step_read_recorded (hi : s.inputs = .access (.read a) :: rest) :
    step s = .next { s with
      inputs := rest
      replies := ⟨a, memRead a s⟩ :: s.replies
      draws := drawsAfterRead a { s with inputs := rest } } := by
  rw [step_cons hi, ← memRead_congr a s rest s.replies]
  rfl

theorem memRead_status (s : State) : memRead 0x01 s = s.status.setWidth 32 := by
  rw [memRead, readIsOpen_status]; rfl

/-- A read made twice in a row returns one value, and uses up at most one free value. -/
theorem runSteps_read_twice (hi : s.inputs = .access (.read a) :: .access (.read a) :: rest) :
    runSteps 2 s = .next { s with
      inputs := rest
      replies := ⟨a, memRead a s⟩ :: ⟨a, memRead a s⟩ :: s.replies
      draws := drawsAfterRead a { s with inputs := rest } } := by
  rw [runSteps_succ (step_read_recorded hi), drawsAfterRead_of_repeated (rest := rest) rfl, runSteps_one,
    step_read_recorded (rest := rest) rfl, memRead_congr]
  rfl

/-! ## Writes -/

theorem setWidth_byte_toNat (v : Word) : (v.setWidth 8).toNat = v.toNat % 256 := BitVec.toNat_setWidth ..

/-- A character written to entry `j` of a buffer takes bits [7:0] and leaves the other entries. -/
theorem set_char (b : Vector Ch 64) (j : Fin 64) (v : Word) :
    (b.set j (v.setWidth 8))[j].toNat = v.toNat % 256 ∧
      ∀ m : Fin 64, m ≠ j → (b.set j (v.setWidth 8))[m] = b[m] := by
  constructor
  · rw [Fin.getElem_fin, Vector.getElem_set_self]; exact setWidth_byte_toNat v
  · intro m h
    exact Vector.getElem_set_ne _ _ fun e => h (Fin.ext e.symm)

/-- Settles O31: the write is `writeReg` at the register that the index leads to. -/
theorem writesFollowTheRegisterMap : Obligations.WritesFollowTheRegisterMap := by
  intro s a v rest hb hi
  have hw := step_write hb hi
  refine ⟨?l, ?r, ?k0, ?k1, ?k2, ?k3, ?dlen, ?klen, ?din, ?kin⟩
  case l | r | k0 | k1 | k2 | k3 => rintro rfl; exact hw
  case dlen | klen => rintro rfl; exact ⟨v.setWidth 8, hw, setWidth_byte_toNat v⟩
  case din => intro j h; rw [regAt_din a j h] at hw; exact ⟨_, hw, set_char s.din j v⟩
  case kin => intro j h; rw [regAt_kin a j h] at hw; exact ⟨_, hw, set_char s.kin j v⟩

/-- A write to an index whose register takes no written value is dropped, `BUSY` or not. -/
theorem step_write_ignored {v : Word} (ha : ∀ s, writeReg v s (regAt a) = s)
    (hi : s.inputs = .access (.write a v) :: rest) : step s = .next { s with inputs := rest } := by
  cases hb : s.busy with
  | true => exact step_write_busy hb hi
  | false => rw [step_write hb hi, ha]

/-- Settles O32: such a read returns 0, and `writeReg` leaves the state at each of these registers. -/
theorem accessesThatReachNoRegister : Obligations.AccessesThatReachNoRegister := by
  intro s a rest
  refine ⟨fun ha hb hi => ?_, fun v ha hi => step_write_ignored (fun u => ?_) hi⟩
  · rw [step_read hb hi]
    rcases ha with hu | rfl
    · rw [regAt_unmapped a hu]; rfl
    · rw [regAt_cmd]; rfl
  · rcases ha with hu | rfl | rfl | rfl | rfl | ⟨hlo, hhi⟩
    · rw [regAt_unmapped a hu]; rfl
    · rfl
    · rfl
    · rfl
    · rfl
    · rw [regAt_dout a ⟨a.toNat - 0xC0, by omega⟩ (by dsimp only; omega)]; rfl

/-- Settles O33: under the invariant the one `STATUS` value that is `BUSY` is `0x01`. -/
theorem busyDropsEveryWrite : Obligations.BusyDropsEveryWrite := by
  intro s a rest hs hb
  refine ⟨fun v => step_write_busy hb, fun hi => ?_, fun hi => ⟨_, _, step_read_recorded hi⟩⟩
  rw [step_read_recorded hi, drawsAfterRead_of_stated (readIsOpen_status _), memRead_status,
    hs.status_of_busy hb]
  rfl

theorem memWrite_of_not_busy (v : Word) (hb : s.busy = false) :
    memWrite a v s = writeReg v s (regAt a) := by
  simp [memWrite, hb]

/-- Only a write to `CMD` starts a command. -/
theorem writeReg_busy (v : Word) (s : State) {x : Reg} (h : x ≠ .cmd) : (writeReg v s x).busy = s.busy := by
  cases x with
  | cmd => exact absurd rfl h
  | _ => rfl

/-- Writing an index other than `CMD` leaves `STATUS`, so the same write again is one more `writeReg` of the
same register. -/
theorem memWrite_memWrite (v : Word) (s : State) (ha : a ≠ 0x00) :
    memWrite a v (memWrite a v s) = memWrite a v s := by
  cases hb : s.busy with
  | true => rw [memWrite_busy a v hb, memWrite_busy a v hb]
  | false =>
    have hc : regAt a ≠ .cmd := fun h => ha ((regAt_eq_cmd_iff a).1 h)
    have hb' : (writeReg v s (regAt a)).busy = false := by rw [writeReg_busy v s hc, hb]
    rw [memWrite_of_not_busy v hb, memWrite_of_not_busy v hb', writeReg_writeReg v v s _ hc]

/-- Settles O34: a write by `memWrite_memWrite`; a read by `runSteps_read_twice`, which moves the counter only
where R61 leaves the value open. -/
theorem accessesAreIdempotent : Obligations.AccessesAreIdempotent := by
  intro s a
  refine ⟨fun v => memWrite_memWrite v s, fun rest hi => ⟨_, _, runSteps_read_twice hi⟩,
    fun rest hb hi => ?_⟩
  have hstated : readIsOpen a { s with inputs := rest } = false := readIsOpen_of_not_busy a hb
  exact ⟨memRead a s, by rw [runSteps_read_twice hi, drawsAfterRead_of_stated hstated]⟩

end Sys2Proof.Machine
end

section
/-! The decoder and the table T-R71: which words select a command, which are illegal, and how an illegal one
ends (rules R70 to R72, R84). -/

namespace Sys2Proof.Machine

variable {s : State} {w : Word} {i : Instr} {rest : List Input}

/-! ## Words of the table -/

theorem decode_encode (i : Instr) : decode (encode i) = .ok i := by
  cases i <;> rfl

theorem decode_eq_ok_iff : decode w = .ok i ↔ w = encode i :=
  ⟨eq_encode_of_decode, fun h => h ▸ decode_encode i⟩

/-- Settles O1: the seven words are the encodings of the seven commands. -/
theorem opcodeMapWordsDecode : Obligations.OpcodeMapWordsDecode :=
  ⟨decode_encode .decKey, decode_encode .decBlk, decode_encode .encBlk, decode_encode .encR,
    decode_encode .decR, decode_encode .encrypt, decode_encode .decrypt⟩

/-- Settles O2: `decode_eq_ok_iff` at each of the seven commands. -/
theorem wordSelectsCommandIffWholeWordEqual : Obligations.WordSelectsCommandIffWholeWordEqual := by
  intro w
  exact ⟨decode_eq_ok_iff, decode_eq_ok_iff, decode_eq_ok_iff, decode_eq_ok_iff, decode_eq_ok_iff,
    decode_eq_ok_iff, decode_eq_ok_iff⟩

theorem decodeTableWord_eq (w : Word) : decodeTableWord 32 w.toNat = (decode w).toOption := by
  rw [decodeTableWord, Nat.mod_eq_of_lt w.isLt, BitVec.ofNat_toNat, BitVec.setWidth_eq]

/-! ## The fields of a word -/

theorem opField_toNat (w : Word) : (opField w).toNat = w.toNat % 16 := by
  simp [opField]

theorem rsvdField_toNat (w : Word) : (rsvdField w).toNat = w.toNat / 16 := by
  simp [rsvdField, Nat.shiftRight_eq_div_pow]
  omega

theorem rsvdField_eq_zero_iff : rsvdField w = 0#28 ↔ reservedBitsClear w = true := by
  rw [← BitVec.toNat_inj, rsvdField_toNat, reservedBitsClear, beq_iff_eq]
  rfl

/-- An opcode stands for a command exactly when R72 does not list it as reserved. -/
theorem opcode_isSome : ∀ op : BitVec 4, (opcode op).isSome = !reservedOps.contains op.toNat := by
  decide

theorem opcode_opField_isSome (w : Word) : (opcode (opField w)).isSome = opAssigned w := by
  rw [opcode_isSome, opField_toNat, opAssigned]

/-! ## Legal and illegal words -/

theorem decode_ok_iff_commandWordWf : (∃ i, decode w = .ok i) ↔ commandWordWf w = true := by
  rw [commandWordWf, Bool.and_eq_true, ← rsvdField_eq_zero_iff, ← opcode_opField_isSome]
  by_cases hr : rsvdField w = 0#28
  · cases ho : opcode (opField w) <;> simp [decode, hr, ho]
  · simp [decode, hr]

/-- The decoder answers a command or an error, never both. -/
theorem decode_error_iff_not_ok : (∃ e, decode w = .error e) ↔ ¬ ∃ i, decode w = .ok i := by
  cases decode w <;> simp

theorem decode_error_iff_commandWordWf : (∃ e, decode w = .error e) ↔ commandWordWf w = false := by
  rw [decode_error_iff_not_ok, decode_ok_iff_commandWordWf, Bool.not_eq_true]

/-- Settles O3: the word form from `decode_encode`, which also makes the word a legal one, and the table form
reads that word. -/
theorem decodeOfEncodeIsTheCommand : Obligations.DecodeOfEncodeIsTheCommand := by
  intro i _
  refine ⟨decode_encode i, decode_ok_iff_commandWordWf.1 ⟨i, decode_encode i⟩, ?_⟩
  rw [decodeTableWord_eq, decode_encode]
  rfl

/-- Settles O4: `RSVD` and `OP` are the fields that `commandWordWf` tests. -/
theorem decoderAcceptsExactlyLegalWords : Obligations.DecoderAcceptsExactlyLegalWords := by
  intro w
  exact ⟨decode_ok_iff_commandWordWf, decode_error_iff_commandWordWf⟩

theorem commandWordWf_eq_false_iff :
    commandWordWf w = false ↔ w.toNat % 16 ∈ reservedOps ∨ w.toNat / 16 ≠ 0 := by
  simp [commandWordWf, reservedBitsClear, opAssigned, -Nat.div_eq_zero_iff, or_comm, imp_iff_not_or]

theorem decode_ok_iff_mem :
    (∃ i, decode w = .ok i) ↔ w ∈ [0x1#32, 0x2#32, 0x3#32, 0x4#32, 0x5#32, 0x8#32, 0x9#32] := by
  simp only [decode_eq_ok_iff]
  constructor
  · rintro ⟨i, rfl⟩
    cases i <;> simp [encode]
  · simp only [List.mem_cons, List.not_mem_nil, or_false]
    rintro (rfl | rfl | rfl | rfl | rfl | rfl | rfl)
    exacts [⟨.decKey, rfl⟩, ⟨.decBlk, rfl⟩, ⟨.encBlk, rfl⟩, ⟨.encR, rfl⟩, ⟨.decR, rfl⟩, ⟨.encrypt, rfl⟩,
      ⟨.decrypt, rfl⟩]

/-- An accepted illegal word and the CORE's turn after it are together `ProtocolError` on the word. -/
theorem runSteps_illegal {e : Illegal} (hb : s.busy = false) (hd : decode w = .error e)
    (hi : s.inputs = .access (.write 0x00 w) :: .coreTurn :: rest) :
    runSteps 2 s =
      .next { s with inputs := rest, opLatch := w, status := errorStatus raiseCommand } := by
  rw [runSteps_succ (step_write_cmd hb hi), runSteps_one, step_core (rest := rest) (.inl rfl)]
  exact coreStep_illegal (e := e) rfl hd

/-- Settles O5: illegal by the table, by the fields, and what an illegal word does once it is accepted. -/
theorem illegalWordEndsInProtocolError : Obligations.IllegalWordEndsInProtocolError := by
  intro w
  refine ⟨?table, ?fields, fun s rest hw hb hi => ?run⟩
  case table => rw [decode_error_iff_not_ok, decode_ok_iff_mem]
  case fields => exact decode_error_iff_commandWordWf.trans commandWordWf_eq_false_iff
  case run =>
    obtain ⟨e, he⟩ := decode_error_iff_not_ok.2 (not_exists.2 hw)
    exact ⟨step_write_cmd hb hi, runSteps_illegal hb he hi⟩

end Sys2Proof.Machine
end

section
/-! The hex codec's strings (rules R74, R78, R80, R90, R95, R96): the digits, which data strings have a block,
and the form of an output string. -/

namespace Sys2Proof.Machine

variable {s : Str} {l r : Word} {v : Nat}

/-! ## Characters -/

theorem isHex_iff (c : Ch) : isHex c = true ↔
    (0x30 ≤ c.toNat ∧ c.toNat ≤ 0x39) ∨ (0x41 ≤ c.toNat ∧ c.toNat ≤ 0x46) ∨
      (0x61 ≤ c.toNat ∧ c.toNat ≤ 0x66) := by
  unfold isHex hexVal?
  dsimp only
  split_ifs with hdigit hupper hlower
  · exact iff_of_true rfl (.inl hdigit)
  · exact iff_of_true rfl (.inr (.inl hupper))
  · exact iff_of_true rfl (.inr (.inr hlower))
  · exact iff_of_false Bool.false_ne_true (by tauto)

theorem hexVal_digit (c : Ch) (h : 0x30 ≤ c.toNat ∧ c.toNat ≤ 0x39) : hexVal? c = some (c.toNat - 0x30) :=
  if_pos h

theorem hexVal_upper (c : Ch) (h : 0x41 ≤ c.toNat ∧ c.toNat ≤ 0x46) :
    hexVal? c = some (c.toNat - 0x41 + 10) :=
  (if_neg (by omega)).trans (if_pos h)

theorem hexVal_lower (c : Ch) (h : 0x61 ≤ c.toNat ∧ c.toNat ≤ 0x66) :
    hexVal? c = some (c.toNat - 0x61 + 10) :=
  (if_neg (by omega)).trans ((if_neg (by omega)).trans (if_pos h))

theorem hexChar_toNat (n : Nat) (hn : n < 16) :
    (hexChar n).toNat = if n ≤ 9 then 0x30 + n else 0x61 + n - 10 := by
  unfold hexChar
  split <;> exact Nat.mod_eq_of_lt (by omega)

/-- Settles O35, class by class. -/
theorem hexDigitClassesAndValues : Obligations.HexDigitClassesAndValues :=
  ⟨isHex_iff, fun c => ⟨hexVal_digit c, hexVal_upper c, hexVal_lower c⟩, hexChar_toNat⟩

/-! ## Data strings -/

theorem hexNat_eq_some_iff : hexNat? s = some v ↔ allHex s = true ∧ digitSum s = v := by
  cases h : allHex s with
  | true => simp [hexNat?, hexNatFrom_eq 0 s h]
  | false =>
    have hn : hexNat? s = none := Option.not_isSome_iff_eq_none.1 (by simp [hexNat?, hexNatFrom_isSome, h])
    simp [hn]

/-- The two words that `decodeBlock` makes of a number of 64 bits are the one block with that value. -/
theorem halves_eq_iff (hv : v < 2 ^ 64) :
    (BitVec.ofNat 32 (v >>> 32), BitVec.ofNat 32 (v % 2 ^ 32)) = (l, r) ↔ blockValue l r = v := by
  have hl := l.isLt
  have hr := r.isLt
  rw [Prod.mk.injEq, ← BitVec.toNat_inj, ← BitVec.toNat_inj, BitVec.toNat_ofNat, BitVec.toNat_ofNat,
    Nat.shiftRight_eq_div_pow, blockValue]
  omega

/-- What `decodeBlock` accepts, on the string without its hex mark. -/
theorem decodeBlock_eq_ok_iff : decodeBlock s = .ok (l, r) ↔
    allHex (stripHexPrefix s) = true ∧ stripHexPrefix s ≠ [] ∧ digitSum (stripHexPrefix s) < 2 ^ 64 ∧
      blockValue l r = digitSum (stripHexPrefix s) := by
  unfold decodeBlock
  dsimp only
  generalize stripHexPrefix s = t
  split
  next hempty => simp [List.length_eq_zero_iff.1 hempty]
  next hne =>
    have ht : t ≠ [] := fun h => hne (by rw [h]; rfl)
    cases hv : hexNat? t with
    | none =>
      have hx : allHex t ≠ true := fun h => by
        simpa [hv] using hexNat_eq_some_iff.2 ⟨h, rfl⟩
      simp [hx]
    | some v =>
      obtain ⟨hx, rfl⟩ := hexNat_eq_some_iff.1 hv
      dsimp only
      split
      next hbig => exact iff_of_false (fun h => by cases h) fun ⟨_, _, hlt, _⟩ => hbig.not_gt hlt
      next hsmall =>
        have hlt := Nat.not_le.1 hsmall
        rw [Except.ok.injEq, halves_eq_iff hlt]
        exact ⟨fun hb => ⟨hx, ht, hlt, hb⟩, fun ⟨_, _, _, hb⟩ => hb⟩

/-- Settles O39: `decodeBlock_eq_ok_iff`, and the mark that `stripHexPrefix` removes is the only one of
`optionalPrefixes` that leaves hex digits. -/
theorem dataStringFormat : Obligations.DataStringFormat := by
  intro s
  refine ⟨fun l r => decodeBlock_eq_ok_iff.trans ⟨?_, ?_⟩, fun h => ?_⟩
  · intro hs
    obtain ⟨p, hp, he⟩ := stripHexPrefix_form s
    exact ⟨p, stripHexPrefix s, hp, he, hs⟩
  · rintro ⟨p, d, hp, rfl, hx, hd⟩
    rw [stripHexPrefix_of_allHex hp hx]
    exact ⟨hx, hd⟩
  · rcases decodeBlock_cases s with ⟨b, hb⟩ | he
    · exact absurd hb (h b)
    · exact he

/-! ## Output strings -/

theorem isOutputDigit_of_mem_digits {n : Nat} {c : Ch} (h : c ∈ digits n v) : isOutputDigit c = true := by
  obtain ⟨j, -, rfl⟩ := List.mem_map.1 h
  exact isOutputDigit_hexChar _ (Nat.mod_lt _ (by decide))

theorem encodeBlock_sum (l r : Word) : digitSum (encodeBlock l r) = blockValue l r := by
  rw [encodeBlock_eq_digits, digits_sum]
  exact Nat.mod_eq_of_lt (digitCount_spec _ (blockValue_lt l r)).1

/-- The leading digit of the least number of digits that hold a value. -/
theorem leadingDigit_eq_zero_iff (hv : v < 2 ^ 64) : v / 16 ^ (digitCount v - 1) % 16 = 0 ↔ v = 0 := by
  obtain ⟨hlt, hge⟩ := digitCount_spec v hv
  have hsmall : v / 16 ^ (digitCount v - 1) < 16 := by
    rw [Nat.div_lt_iff_lt_mul (by positivity), ← pow_succ', Nat.sub_add_cancel (digitCount_le v).1]
    exact hlt
  rw [Nat.mod_eq_of_lt hsmall, Nat.div_eq_zero_iff_lt (by positivity)]
  constructor
  · intro h
    by_contra h0
    exact absurd (hge h0) (Nat.not_le.2 h)
  · rintro rfl
    positivity

theorem encodeBlock_head_eq_zero_iff (l r : Word) : (encodeBlock l r).head? = some 0x30 ↔ l = 0 ∧ r = 0 := by
  rw [encodeBlock_eq_digits, digits_head _ _ (digitCount_le _).1, Option.some_inj,
    hexChar_eq_zero_iff _ (Nat.mod_lt _ (by decide)), leadingDigit_eq_zero_iff (blockValue_lt l r),
    blockValue_eq_zero_iff]

theorem stripHexPrefix_encodeBlock (l r : Word) : stripHexPrefix (encodeBlock l r) = encodeBlock l r :=
  stripHexPrefix_of_allHex (p := []) (by simp [optionalPrefixes]) (encodeBlock_allHex l r)

/-- Settles O41: an output string is the digits of the block's value, as few as hold it. -/
theorem outputStringFormat : Obligations.OutputStringFormat := by
  intro l r
  obtain ⟨hpos, hmax⟩ := encodeBlock_length l r
  refine ⟨hpos, hmax, fun c hc => ?_, encodeBlock_head_eq_zero_iff l r, ?_, encodeBlock_sum l r,
    stripHexPrefix_encodeBlock l r⟩
  · rw [encodeBlock_eq_digits] at hc
    exact isOutputDigit_of_mem_digits hc
  · rintro ⟨rfl, rfl⟩
    rfl

end Sys2Proof.Machine
end

section
/-! The HOST's whole call (rules R82, R151 to R153): the accesses of `PUTD` and `PUTK` load the two strings, the
command runs the facade on them, and `WAIT` and `GETO` show its answer (log entries 3, 6 and 17). -/

namespace Sys2Proof.Machine

variable {s t u : State} {rest : List Input}

theorem Direction.command_cases (d : Direction) : d.command = .encrypt ∨ d.command = .decrypt := by
  cases d
  · exact .inl rfl
  · exact .inr rfl

/-! ## Runs over a list of inputs -/

theorem runSteps_append {xs ys : List Input} (hx : runSteps xs.length s = .next t)
    (hy : runSteps ys.length t = .next u) : runSteps (xs ++ ys).length s = .next u := by
  rw [List.length_append, runSteps_add hx, hy]

/-! ## Loading a string: `PUTD` and `PUTK` -/

/-- The two strings that the HOST loads, so that `PUTD` and `PUTK` share their proofs. -/
inductive HostString where
  | data
  | key

/-- The index of the buffer's first character (T-R51). -/
def HostString.base : HostString → Nat
  | .data => 0x40
  | .key => 0x80

/-- The index of the length register (T-R51). -/
def HostString.lengthIndex : HostString → RegIndex
  | .data => 0x0A
  | .key => 0x0B

/-- The buffer of the string (R29). -/
def HostString.buffer : HostString → State → Vector Ch 64
  | .data, s => s.din
  | .key, s => s.kin

/-- The writes of `PUTD` or `PUTK` to the buffer, all together. -/
def HostString.setBuffer : HostString → Vector Ch 64 → State → State
  | .data, b, s => { s with din := b }
  | .key, b, s => { s with kin := b }

/-- The write of `PUTD` or `PUTK` to `DLEN` or `KLEN`. -/
def HostString.setLength : HostString → BitVec 8 → State → State
  | .data, n, s => { s with dlen := n }
  | .key, n, s => { s with klen := n }

/-- `PUTD` or `PUTK` (R82). -/
def HostString.put (x : HostString) (cs : Str) : List Input :=
  putChars x.base cs ++ [.access (.write x.lengthIndex (BitVec.ofNat 32 cs.length))]

theorem step_write_char (x : HostString) {j : Nat} {c : Ch} (hj : j < 64) (hb : s.busy = false)
    (hi : s.inputs = .access (.write (BitVec.ofNat 8 (x.base + j)) (c.setWidth 32)) :: rest) :
    step s = .next (x.setBuffer ((x.buffer s).set j c) { s with inputs := rest }) := by
  have hc : (c.setWidth 32).setWidth 8 = c := by simp
  rw [step_write hb hi]
  cases x with
  | data =>
    have hr := regAt_din (BitVec.ofNat 8 (0x40 + j)) ⟨j, hj⟩ (Nat.mod_eq_of_lt (by omega))
    simp only [HostString.base, hr, writeReg, hc]
    rfl
  | key =>
    have hr := regAt_kin (BitVec.ofNat 8 (0x80 + j)) ⟨j, hj⟩ (Nat.mod_eq_of_lt (by omega))
    simp only [HostString.base, hr, writeReg, hc]
    rfl

theorem step_write_length (x : HostString) {n : Nat} (hb : s.busy = false)
    (hi : s.inputs = .access (.write x.lengthIndex (BitVec.ofNat 32 n)) :: rest) :
    step s = .next (x.setLength (BitVec.ofNat 8 n) { s with inputs := rest }) := by
  have hn : (BitVec.ofNat 32 n).setWidth 8 = BitVec.ofNat 8 n := by
    apply BitVec.eq_of_toNat_eq
    simp
  rw [step_write hb hi, ← hn]
  cases x <;> rfl

theorem HostString.setBuffer_busy (x : HostString) (b : Vector Ch 64) (s : State) :
    (x.setBuffer b s).busy = s.busy := by
  cases x <;> rfl

theorem HostString.setBuffer_inputs (x : HostString) (b : Vector Ch 64) (s : State) :
    (x.setBuffer b s).inputs = s.inputs := by
  cases x <;> rfl

theorem HostString.buffer_setBuffer (x : HostString) (b : Vector Ch 64) (s : State) :
    x.buffer (x.setBuffer b s) = b := by
  cases x <;> rfl

theorem HostString.setBuffer_setBuffer (x : HostString) (b b' : Vector Ch 64) (s : State) (i : List Input) :
    x.setBuffer b' { x.setBuffer b s with inputs := i } = x.setBuffer b' { s with inputs := i } := by
  cases x <;> rfl

/-- Writing characters from entry `j` on extends the string of length `j` by them, and changes nothing but
the buffer. -/
theorem runSteps_putChars (x : HostString) (cs : Str) (j : Nat) (hj : j + cs.length ≤ 64)
    (hb : s.busy = false) (hi : s.inputs = putChars (x.base + j) cs ++ rest) :
    ∃ b, runSteps (putChars (x.base + j) cs).length s =
        .next (x.setBuffer b { s with inputs := rest }) ∧
      b.toList.take (j + cs.length) = (x.buffer s).toList.take j ++ cs := by
  induction cs generalizing s j with
  | nil =>
    refine ⟨x.buffer s, ?_, by simp⟩
    obtain rfl : s.inputs = rest := hi
    cases x <;> rfl
  | cons c cs ih =>
    rw [List.length_cons] at hj
    have hstep := step_write_char x (by omega) hb hi
    obtain ⟨b, hrun, htake⟩ := ih (s := x.setBuffer ((x.buffer s).set j c)
        { s with inputs := putChars (x.base + (j + 1)) cs ++ rest }) (j + 1) (by omega)
      ((x.setBuffer_busy _ _).trans hb) (x.setBuffer_inputs _ _)
    rw [x.setBuffer_setBuffer] at hrun
    rw [x.buffer_setBuffer, take_set] at htake
    refine ⟨b, (runSteps_succ hstep).trans hrun, ?_⟩
    rw [List.length_cons, Nat.add_comm cs.length, ← Nat.add_assoc, htake, List.append_assoc]
    rfl

/-- `PUTD` or `PUTK` leaves its string in the buffer and the length register, and changes nothing else. -/
theorem runSteps_put (x : HostString) {cs : Str} (hf : stringFits cs = true) (hb : s.busy = false)
    (hi : s.inputs = x.put cs ++ rest) :
    ∃ b, runSteps (x.put cs).length s =
        .next (x.setLength (BitVec.ofNat 8 cs.length) (x.setBuffer b { s with inputs := rest })) ∧
      b.toList.take cs.length = cs := by
  have hlen : cs.length ≤ 64 := of_decide_eq_true hf
  rw [HostString.put, List.append_assoc] at hi
  obtain ⟨b, hrun, htake⟩ := runSteps_putChars x cs 0 (by omega) hb hi
  refine ⟨b, runSteps_append hrun ?_, by simpa using htake⟩
  refine (runSteps_one _).trans (Eq.trans (step_write_length x ((x.setBuffer_busy _ _).trans hb)
    (x.setBuffer_inputs _ _)) ?_)
  cases x <;> rfl

theorem stringOperand_of_take {b : Vector Ch 64} {cs : Str} (p : Param) (hf : stringFits cs = true)
    (h : b.toList.take cs.length = cs) : stringOperand b (BitVec.ofNat 8 cs.length) p = .ok cs := by
  have hlen : cs.length ≤ 64 := of_decide_eq_true hf
  have hn : (BitVec.ofNat 8 cs.length).toNat = cs.length := Nat.mod_eq_of_lt (by omega)
  rw [stringOperand_ok (by omega), hn, h]

theorem runSteps_putD {p : Str} (hf : stringFits p = true) (hb : s.busy = false)
    (hi : s.inputs = putD p ++ rest) :
    ∃ t, runSteps (putD p).length s = .next t ∧ t.busy = false ∧ t.inputs = rest ∧
      dataString t = .ok p := by
  obtain ⟨b, hrun, htake⟩ := runSteps_put .data hf hb hi
  exact ⟨_, hrun, hb, rfl, stringOperand_of_take .data hf htake⟩

theorem runSteps_putK {k : Str} (hf : stringFits k = true) (hb : s.busy = false)
    (hi : s.inputs = putK k ++ rest) :
    ∃ t, runSteps (putK k).length s = .next t ∧ t.busy = false ∧ t.inputs = rest ∧
      dataString t = dataString s ∧ keyString t = .ok k := by
  obtain ⟨b, hrun, htake⟩ := runSteps_put .key hf hb hi
  exact ⟨_, hrun, hb, rfl, rfl, stringOperand_of_take .key hf htake⟩

/-! ## Polling: `WAIT` -/

/-- Reads of `STATUS` change nothing but the record of replies. -/
theorem runSteps_polls (n : Nat) (hi : s.inputs = List.replicate n (.access (.read 0x01)) ++ rest) :
    ∃ p, runSteps (List.replicate n (Input.access (.read 0x01))).length s =
      .next { s with inputs := rest, replies := p } := by
  induction n generalizing s with
  | zero =>
    obtain rfl : s.inputs = rest := hi
    exact ⟨s.replies, rfl⟩
  | succ n ih =>
    have hstep := step_read_recorded (s := s) hi
    rw [drawsAfterRead_of_stated (readIsOpen_status _)] at hstep
    obtain ⟨p, hrun⟩ := ih (s := { s with inputs := _, replies := _, draws := s.draws }) rfl
    exact ⟨p, (runSteps_succ hstep).trans hrun⟩

/-- The poll that ends `WAIT` records `STATUS`. -/
theorem step_poll (hi : s.inputs = .access (.read 0x01) :: rest) :
    step s = .next { s with
      inputs := rest, replies := ⟨0x01, s.status.setWidth 32⟩ :: s.replies } := by
  rw [step_read_recorded hi, drawsAfterRead_of_stated (readIsOpen_status _), memRead_status]

/-- `WAIT` on a facade command in flight: the command's meaning, whenever the CORE's turn comes, and then its
`STATUS` recorded. -/
theorem runSteps_wait {d : Direction} (polls : Nat) (hb : s.busy = true)
    (hd : decode s.opLatch = .ok d.command) (hi : s.inputs = wait polls ++ rest) :
    ∃ i p t, exec d.command { s with inputs := i, replies := p } = .next t ∧
      runSteps (wait polls).length s = .next { t with
        inputs := rest, replies := ⟨0x01, t.status.setWidth 32⟩ :: p } := by
  rw [wait, List.append_assoc] at hi
  obtain ⟨p, hpolls⟩ := runSteps_polls polls hi
  obtain ⟨t, ht⟩ := exec_next d.command
    { s with inputs := .access (.read 0x01) :: rest, replies := p }
  have hframe := facade_frame d.command_cases ht
  have hinputs : t.inputs = .access (.read 0x01) :: rest := congrArg State.inputs hframe
  have hreplies : t.replies = p := congrArg State.replies hframe
  refine ⟨_, p, t, ht, runSteps_append hpolls ?_⟩
  have hturn := step_turn_ok (s := { s with inputs := .coreTurn :: .access (.read 0x01) :: rest, replies := p })
    hb (.inl rfl) hd
  refine (runSteps_succ (hturn.trans ht)).trans ((runSteps_one t).trans ?_)
  rw [step_poll hinputs, hreplies]

/-! ## The answer: `STATUS` and `GETO` -/

theorem memRead_of_not_busy (a : RegIndex) (hb : s.busy = false) : memRead a s = readReg s (regAt a) := by
  rw [memRead, readIsOpen_of_not_busy a hb]
  rfl

/-- `GETO` reads back a string of at most 16 characters that the output registers hold. -/
theorem getO_of_output {o : Str} (hb : s.busy = false) (ho : o.length ≤ 16)
    (hlen : s.olen = BitVec.ofNat 5 o.length) (hout : s.dout = outputBuffer o) : getO s = o := by
  have hn : (memRead 0x0C s).toNat = o.length := by
    rw [memRead_of_not_busy _ hb]
    exact (setWidth_toNat s.olen (by decide)).trans (by rw [hlen, olen_toNat ho])
  rw [getO, hn]
  apply List.ext_getElem
  · simp
  · intro j _ hj
    have hr := regAt_dout (BitVec.ofNat 8 (0xC0 + j)) ⟨j, by omega⟩ (Nat.mod_eq_of_lt (by omega))
    have hc : s.dout[(⟨j, by omega⟩ : Fin 16)] = o[j] := by rw [hout, outputBuffer_get, dif_pos hj]
    rw [List.getElem_map, List.getElem_range, memRead_of_not_busy _ hb, hr, readReg, hc]
    simp

/-- The facade command's end, as the HOST sees it, is the answer of the function of R151. -/
theorem callResult_of_exec {d : Direction} {p k : Str} (hp : dataString s = .ok p) (hk : keyString s = .ok k)
    (h : exec d.command s = .next t) : callResult t = some (facade d p k) := by
  have hops : facadeOperands d s = facadeBlocks d p k := by
    rw [facadeOperands, hp, hk]
    rfl
  rw [exec_facade] at h
  rcases finish_cases h with ⟨x, hx, rfl⟩ | ⟨e, he, rfl⟩
  · have hget : getO (complete (setFacade d x s)) = encodeBlock x.l x.r :=
      getO_of_output rfl (encodeBlock_length x.l x.r).2 rfl rfl
    rw [callResult, if_pos (complete_status _), hget, facade, ← hops, hx]
    rfl
  · have hreport := reportedError_of_facadeOperands he
    rw [callResult, raise_status, if_neg (errorStatus_ne_done e), hreport, facade, ← hops, he]
    rfl

/-- The result of a call depends on the hardware alone, not on the coming inputs or the recorded replies. -/
theorem callResult_congr (s : State) (i : List Input) (p : List Reply) :
    callResult { s with inputs := i, replies := p } = callResult s := by
  simp only [callResult, getO, memRead_congr]

/-- Settles O51: the four parts of the call one after the other. -/
theorem hostCallComputesTheFacade : Obligations.HostCallComputesTheFacade := by
  intro d p k polls rest s hb hfp hfk hi
  simp only [callInputs, List.append_assoc] at hi
  obtain ⟨s1, hrun1, hb1, hi1, hp1⟩ := runSteps_putD hfp hb hi
  obtain ⟨s2, hrun2, hb2, hi2, hp2, hk2⟩ := runSteps_putK hfk hb1 hi1
  have hcmd := step_write_cmd hb2 hi2
  obtain ⟨i, r, t, hexec, hwait⟩ := runSteps_wait (d := d)
    (s := { s2 with inputs := wait polls ++ rest, opLatch := encode d.command, status := statusBusy })
    polls rfl (decode_encode _) rfl
  refine ⟨_, runSteps_append (runSteps_append (runSteps_append hrun1 hrun2) ((runSteps_one s2).trans hcmd))
    hwait, rfl, ?_, rfl⟩
  rw [callResult_congr]
  refine callResult_of_exec (p := p) (k := k) ?_ ?_ hexec
  · exact hp2.trans hp1
  · exact hk2

end Sys2Proof.Machine
end

section
/-! The hex codec's laws of values (rules R77, R90, R92, R94, R100, R102): what padding and leading zeros do to a
number, which key strings are accepted, and that the data codec's two functions undo each other. -/

namespace Sys2Proof.Machine

variable {s t : Str} {l r w : Word} {k : Key} {v : Nat}

/-! ## Leading zeros -/

theorem head_ne_zero_of_dropZeros {c : Ch} {cs : Str} (h : s.dropWhile (· == 0x30) = c :: cs) :
    c ≠ 0x30 := by
  have hhead := List.head?_dropWhile_not (· == (0x30 : Ch)) s
  rw [h] at hhead
  simpa using hhead

/-- The only digit of value 0 is `0`. -/
theorem hexVal_ne_zero {c : Ch} (hx : isHex c = true) (hc : c ≠ 0x30) : ∃ n, hexVal? c = some n ∧ n ≠ 0 := by
  have hall : ∀ c : Ch, hexVal? c = some 0 → c = 0x30 := by decide
  obtain ⟨n, hn⟩ := Option.isSome_iff_exists.1 hx
  exact ⟨n, hn, fun h0 => hc (hall c (h0 ▸ hn))⟩

/-- A number fits in `n` digits exactly when at most `n` of its digits are left after the leading zeros. -/
theorem digitSum_lt_iff (h : allHex s = true) (n : Nat) :
    digitSum s < 16 ^ n ↔ (s.dropWhile (· == 0x30)).length ≤ n := by
  have hx := allHex_dropZeros s h
  rw [← digitSum_dropZeros]
  cases hd : s.dropWhile (· == 0x30) with
  | nil => simp
  | cons c cs =>
    have hc : isHex c = true := by
      rw [hd] at hx
      exact List.all_eq_true.1 hx c List.mem_cons_self
    obtain ⟨m, hm, hm0⟩ := hexVal_ne_zero hc (head_ne_zero_of_dropZeros hd)
    have hge := digitSum_ge_of_head c cs m hm hm0
    have hlt := digitSum_lt (c :: cs)
    constructor
    · intro hn
      exact (Nat.pow_lt_pow_iff_right (by decide)).1 (hge.trans_lt hn)
    · intro hn
      exact hlt.trans_le (Nat.pow_le_pow_right (by decide) hn)

/-! ## The number a string spells, and padding -/

/-- Settles O36: `hexnat` is some value exactly on the strings of hex digits, and that value is the sum. -/
theorem hexNatIsTheDigitSum : Obligations.HexNatIsTheDigitSum := by
  intro s
  refine ⟨List.all_eq_true, fun h => hexNat_eq_some_iff.2 ⟨h, rfl⟩, fun h => ?_⟩
  have hsome : (hexNat? s).isSome = false := (hexNatFrom_isSome 0 s).trans h
  simpa using hsome

theorem padToEvenLength_of_even (h : s.length % 2 = 0) : padToEvenLength s = s :=
  if_neg (by omega)

theorem padToEvenLength_of_odd (h : s.length % 2 = 1) : padToEvenLength s = 0x30 :: s :=
  if_pos h

theorem hexNat_zero_cons (s : Str) : hexNat? (0x30 :: s) = hexNat? s := rfl

/-- Settles O37, by the parity of the length: the `0` that padding puts in front counts 0. -/
theorem paddingKeepsTheValue : Obligations.PaddingKeepsTheValue := by
  intro s
  refine ⟨?_, padToEvenLength_of_even, padToEvenLength_of_odd, ?_⟩
  · rcases Nat.mod_two_eq_zero_or_one s.length with h | h
    · rw [padToEvenLength_of_even h, h]
    · rw [padToEvenLength_of_odd h, List.length_cons]
      omega
  · rcases Nat.mod_two_eq_zero_or_one s.length with h | h
    · rw [padToEvenLength_of_even h]
    · rw [padToEvenLength_of_odd h, hexNat_zero_cons]

theorem digitSum_pad (s : Str) : digitSum (padToEvenLength s) = digitSum s := by
  rcases Nat.mod_two_eq_zero_or_one s.length with h | h
  · rw [padToEvenLength_of_even h]
  · rw [padToEvenLength_of_odd h, digitSum_cons]
    simp [show hexVal? 48#8 = some 0 from rfl]

/-! ## Key strings -/

/-- A chunk of 8 digits is a word without loss. -/
theorem parseHex32_eq_some_iff (h : s.length = 8) :
    parseHex32? s = some w ↔ allHex s = true ∧ w.toNat = digitSum s := by
  have hlt : digitSum s < 2 ^ 32 := by simpa [h] using digitSum_lt s
  have hw : BitVec.ofNat 32 (digitSum s) = w ↔ w.toNat = digitSum s := by
    rw [← BitVec.toNat_inj, BitVec.toNat_ofNat, Nat.mod_eq_of_lt hlt, eq_comm]
  simp [parseHex32?, Option.map_eq_some_iff, hexNat_eq_some_iff, hw]

theorem allHex_append : allHex (s ++ t) = true ↔ allHex s = true ∧ allHex t = true := by
  simp [allHex, List.all_append]

theorem allHex_iff_chunks (h : t.length = 32) : allHex t = true ↔
    allHex (chunk t 0) = true ∧ allHex (chunk t 1) = true ∧ allHex (chunk t 2) = true ∧
      allHex (chunk t 3) = true := by
  conv_lhs => rw [eq_chunks t h]
  simp only [allHex_append]

/-- The number that 32 digits spell has the four chunks' numbers as its words. -/
theorem value_eq_digitSum_iff (h : t.length = 32) : k.value = digitSum t ↔
    k.k0.toNat = digitSum (chunk t 0) ∧ k.k1.toNat = digitSum (chunk t 1) ∧
      k.k2.toNat = digitSum (chunk t 2) ∧ k.k3.toNat = digitSum (chunk t 3) := by
  have hlen := chunk_length t h
  have hlt (i : Nat) (hi : i < 4) : digitSum (chunk t i) < 2 ^ 32 := by
    simpa [hlen i hi] using digitSum_lt (chunk t i)
  have hsum : digitSum t = 2 ^ 96 * digitSum (chunk t 0) + 2 ^ 64 * digitSum (chunk t 1) +
      2 ^ 32 * digitSum (chunk t 2) + digitSum (chunk t 3) := by
    conv_lhs => rw [eq_chunks t h]
    simp [digitSum_append, hlen]
    omega
  have h0 := hlt 0 (by decide)
  have h1 := hlt 1 (by decide)
  have h2 := hlt 2 (by decide)
  have h3 := hlt 3 (by decide)
  have := k.k0.isLt
  have := k.k1.isLt
  have := k.k2.isLt
  have := k.k3.isLt
  rw [hsum, Key.value]
  omega

/-- `decodeKeyWords` on the padded string: 32 characters, and each chunk a word. -/
theorem decodeKeyWords_eq_ok_iff_chunks : decodeKeyWords s = .ok k ↔
    let t := padToEvenLength (stripHexPrefix s)
    t.length = 32 ∧ parseHex32? (chunk t 0) = some k.k0 ∧ parseHex32? (chunk t 1) = some k.k1 ∧
      parseHex32? (chunk t 2) = some k.k2 ∧ parseHex32? (chunk t 3) = some k.k3 := by
  unfold decodeKeyWords
  dsimp only
  split
  next h => exact iff_of_false (fun he => by cases he) fun ⟨hlen, _⟩ => h hlen
  next h =>
    have hlen := not_not.1 h
    split
    next w0 w1 w2 w3 h0 h1 h2 h3 =>
      obtain ⟨k0, k1, k2, k3⟩ := k
      simp [h0, h1, h2, h3, hlen, Config.KEY_DIGITS]
    next hnone =>
      refine iff_of_false (fun he => by cases he) fun ⟨_, h0, h1, h2, h3⟩ => ?_
      exact hnone _ _ _ _ h0 h1 h2 h3

/-- What `decodeKeyWords` accepts, on the string without its hex mark. -/
theorem decodeKeyWords_eq_ok_iff : decodeKeyWords s = .ok k ↔
    allHex (stripHexPrefix s) = true ∧
      ((stripHexPrefix s).length = 31 ∨ (stripHexPrefix s).length = 32) ∧
      k.value = digitSum (stripHexPrefix s) := by
  rw [decodeKeyWords_eq_ok_iff_chunks, ← pad_length_eq_32, ← allHex_pad, ← digitSum_pad]
  generalize padToEvenLength (stripHexPrefix s) = t
  dsimp only
  by_cases h : t.length = 32
  · have hlen := chunk_length t h
    rw [parseHex32_eq_some_iff (hlen 0 (by decide)), parseHex32_eq_some_iff (hlen 1 (by decide)),
      parseHex32_eq_some_iff (hlen 2 (by decide)), parseHex32_eq_some_iff (hlen 3 (by decide)),
      allHex_iff_chunks h, value_eq_digitSum_iff h]
    tauto
  · simp [h]

/-- Settles O38: `decodeKeyWords_eq_ok_iff`, and the mark that `stripHexPrefix` removes is the only one of
`optionalPrefixes` that leaves hex digits. -/
theorem keyStringFormat : Obligations.KeyStringFormat := by
  intro s
  refine ⟨fun k => decodeKeyWords_eq_ok_iff.trans ⟨fun hs => ?_, ?_⟩, fun h => ?_⟩
  · obtain ⟨p, hp, he⟩ := stripHexPrefix_form s
    exact ⟨p, stripHexPrefix s, hp, he, hs⟩
  · rintro ⟨p, d, hp, rfl, hx, hd⟩
    rw [stripHexPrefix_of_allHex hp hx]
    exact ⟨hx, hd⟩
  · rcases decodeKeyWords_cases s with ⟨k, hk⟩ | he
    · exact absurd hk (h k)
    · exact he

/-! ## The data codec -/

/-- Settles O40: `decodeBlock_eq_ok_iff`, where `digitSum_lt_iff` turns the bound on the number into the bound on
the digits left, and leading zeros count nothing. -/
theorem boundedBlockTestIsEquivalent : Obligations.BoundedBlockTestIsEquivalent := by
  intro s l r t t'
  have hlen : t ≠ [] ↔ 1 ≤ t.length := List.length_pos_iff.symm
  rw [decodeBlock_eq_ok_iff, hexNat_eq_some_iff, digitSum_dropZeros, ← hlen]
  constructor
  · rintro ⟨hx, hne, hlt, hv⟩
    exact ⟨hne, hx, (digitSum_lt_iff hx 16).1 hlt, allHex_dropZeros t hx, hv.symm⟩
  · rintro ⟨hne, hx, hle, -, hv⟩
    exact ⟨hx, hne, (digitSum_lt_iff hx 16).2 hle, hv.symm⟩

theorem decodeBlock_encodeBlock (l r : Word) : decodeBlock (encodeBlock l r) = .ok (l, r) := by
  rw [decodeBlock_eq_ok_iff, stripHexPrefix_encodeBlock, encodeBlock_sum]
  exact ⟨encodeBlock_allHex l r, List.length_pos_iff.1 (encodeBlock_length l r).1, blockValue_lt l r, rfl⟩

/-- The digits that a number needs are those left of any string that spells it, after the leading zeros. -/
theorem digitCount_eq_length (hx : allHex s = true) (hs : digitSum s = v) (hv : v < 2 ^ 64) (h0 : v ≠ 0) :
    digitCount v = (s.dropWhile (· == 0x30)).length := by
  subst hs
  obtain ⟨hlt, hge⟩ := digitCount_spec _ hv
  apply Nat.le_antisymm
  · have hfit := (digitSum_lt_iff hx _).2 (le_refl (s.dropWhile (· == 0x30)).length)
    have hexp := (Nat.pow_lt_pow_iff_right (by decide)).1 ((hge h0).trans_lt hfit)
    omega
  · exact (digitSum_lt_iff hx _).1 hlt

/-- Lowered digits without leading zeros are the digits of their number. -/
theorem dropZeros_lower_eq_digits (hx : allHex s = true) (hs : digitSum (s.map lowerHex) = v) :
    (s.map lowerHex).dropWhile (· == 0x30) =
      digits ((s.map lowerHex).dropWhile (· == 0x30)).length v := by
  rw [← hs, ← digitSum_dropZeros (s.map lowerHex)]
  refine eq_digits _ fun c hc => ?_
  obtain ⟨c0, hc0, rfl⟩ := List.mem_map.1 ((List.dropWhile_suffix _).subset hc)
  exact lowerHex_of_isHex c0 (List.all_eq_true.1 hx c0 hc0)

/-- Encoding a decoded block gives the string's canonical form: both are the digits of the block's value, as many
as are left after the leading zeros; for the value 0 none is left, and both are "0". -/
theorem encodeBlock_of_decodeBlock (h : decodeBlock s = .ok (l, r)) : encodeBlock l r = canonical s := by
  obtain ⟨hx, -, -, hv⟩ := decodeBlock_eq_ok_iff.1 h
  have hxl : allHex ((stripHexPrefix s).map lowerHex) = true := (allHex_lowerHex _).trans hx
  have hs : digitSum ((stripHexPrefix s).map lowerHex) = blockValue l r := (digitSum_lowerHex _).trans hv.symm
  rw [encodeBlock_eq_digits, canonical]
  by_cases h0 : blockValue l r = 0
  · have hempty := (digitSum_lt_iff hxl 0).1 (by rw [hs, h0]; decide)
    rw [List.length_eq_zero_iff.1 (Nat.le_zero.1 hempty), h0]
    rfl
  · have hcount := digitCount_eq_length hxl hs (blockValue_lt l r) h0
    have hpos := (digitCount_le (blockValue l r)).1
    rw [hcount] at hpos ⊢
    rw [← dropZeros_lower_eq_digits hx hs, if_neg]
    simpa using List.length_pos_iff.1 hpos

/-- Settles O42: `decodeBlock_encodeBlock` one way, `encodeBlock_of_decodeBlock` the other. -/
theorem blockCodecRoundTrip : Obligations.BlockCodecRoundTrip := by
  refine ⟨decodeBlock_encodeBlock, fun s l r h => ?_⟩
  rw [encodeBlock_of_decodeBlock h]
  exact ⟨rfl, Iff.rfl⟩

end Sys2Proof.Machine
end

section
/-! The codec's commands (rules R97 to R99), and the `STATUS` values that each command ends with (T-R178). -/

namespace Sys2Proof.Machine

/-! ## The codec's commands -/

/-- A command that decodes one string: its length error, its result, and its format error. -/
theorem finish_stringOperand {α : Type} {b : Vector Ch 64} {n : BitVec 8} {p : Param} {f : Str → Except Raise α}
    {e : Raise} (c : α → State → State) (s : State)
    (hf : (∃ a, f (b.toList.take n.toNat) = .ok a) ∨ f (b.toList.take n.toNat) = .error e) :
    (64 < n.toNat → finish ((stringOperand b n p).bind f) c s = .next (raise ⟨.protocolError, p⟩ s)) ∧
    (n.toNat ≤ 64 →
      (∀ a, f (b.toList.take n.toNat) = .ok a →
        finish ((stringOperand b n p).bind f) c s = .next (complete (c a s))) ∧
      ((∀ a, f (b.toList.take n.toNat) ≠ .ok a) →
        finish ((stringOperand b n p).bind f) c s = .next (raise e s))) := by
  refine ⟨fun hlen => ?_, fun hlen => ⟨fun a ha => ?_, fun hnone => ?_⟩⟩
  · rw [stringOperand_error hlen]
    rfl
  · rw [stringOperand_ok hlen, Except.bind, ha, finish_ok]
  · rw [stringOperand_ok hlen, Except.bind, hf.resolve_left (not_exists.2 hnone), finish_error]

/-- Settles O15: `finish_stringOperand` with `decodeKeyWords`. -/
theorem decKeyWritesTheDecodedKey : Obligations.DecKeyWritesTheDecodedKey := fun s =>
  ⟨rfl, finish_stringOperand setKey s (decodeKeyWords_cases (s.kin.toList.take s.klen.toNat))⟩

/-- Settles O16: `finish_stringOperand` with `decodeBlock`. -/
theorem decBlkWritesTheDecodedHalves : Obligations.DecBlkWritesTheDecodedHalves := by
  intro s
  obtain ⟨htooLong, hfits⟩ := finish_stringOperand (p := .data) (fun b => setBlock b.1 b.2) s
    (decodeBlock_cases (s.din.toList.take s.dlen.toNat))
  refine ⟨rfl, htooLong, fun hlen => ?_⟩
  obtain ⟨hok, herror⟩ := hfits hlen
  exact ⟨fun l r hb => hok (l, r) hb, herror⟩

/-- Settles O17: an encoding has at most 16 characters, so `OLEN` and `DOUT` hold all of it. -/
theorem encBlkWritesTheOutputString : Obligations.EncBlkWritesTheOutputString := by
  intro s
  exact ⟨rfl, complete (setOutput (encodeBlock s.l s.r) s), rfl, rfl, olen_toNat (encodeBlock_length s.l s.r).2,
    outputBuffer_get _⟩

/-! ## The `STATUS` values a command can end with -/

/-- A command that reads a string fails on its length, or as the rest of the command fails. -/
theorem stringOperand_bind_error {α : Type} {b : Vector Ch 64} {n : BitVec 8} {p : Param}
    {f : Str → Except Raise α} {e : Raise} (h : (stringOperand b n p).bind f = .error e) :
    e = ⟨.protocolError, p⟩ ∨ ∃ x, f x = .error e := by
  rcases stringOperand_cases b n p with ⟨-, hs⟩ | ⟨-, hs⟩ <;> rw [hs] at h
  · cases h
    exact .inl rfl
  · exact .inr ⟨_, h⟩

theorem decodeKeyWords_error {x : Str} {e : Raise} (h : decodeKeyWords x = .error e) :
    e = ⟨.malformedInput, .key⟩ := by
  rcases decodeKeyWords_cases x with ⟨w, hw⟩ | he
  · cases hw.symm.trans h
  · cases he.symm.trans h
    rfl

theorem decodeBlock_error {x : Str} {e : Raise} (h : decodeBlock x = .error e) :
    e = ⟨.malformedInput, .data⟩ := by
  rcases decodeBlock_cases x with ⟨b, hb⟩ | he
  · cases hb.symm.trans h
  · cases he.symm.trans h
    rfl

theorem facadeBlocks_error {d : Direction} {data key : Str} {e : Raise}
    (h : facadeBlocks d data key = .error e) :
    e = ⟨.invalidArgument, .data⟩ ∨ e = ⟨.invalidArgument, .key⟩ ∨ e = ⟨.malformedInput, .key⟩ ∨
      e = ⟨.malformedInput, .data⟩ := by
  unfold facadeBlocks expand at h
  split at h
  · cases h
    exact .inl rfl
  split at h
  · cases h
    exact .inr (.inl rfl)
  cases hk : decodeKeyWords key with
  | error e' =>
    rw [hk] at h
    cases h
    exact .inr (.inr (.inl (decodeKeyWords_error hk)))
  | ok w =>
    cases hb : decodeBlock data with
    | error e' =>
      rw [hk, hb] at h
      cases h
      exact .inr (.inr (.inr (decodeBlock_error hb)))
    | ok b =>
      rw [hk, hb] at h
      cases h

theorem finish_status_mem {α : Type} {x : Except Raise α} {c : α → State → State} {s : State}
    {vs : List (BitVec 6)} (hdone : statusDone ∈ vs) (herr : ∀ e, x = .error e → errorStatus e ∈ vs) :
    ∃ t, finish x c s = .next t ∧ t.status ∈ vs := by
  cases x with
  | ok a => exact ⟨_, rfl, hdone⟩
  | error e => exact ⟨_, rfl, herr e rfl⟩

theorem finish_facade_status_mem (d : Direction) (s : State) :
    ∃ t, finish (facadeOperands d s) (setFacade d) s = .next t ∧ t.status ∈ outcomes d.command := by
  have hsame : outcomes d.command = outcomes .encrypt := by cases d <;> rfl
  rw [hsame]
  refine finish_status_mem (by decide) fun e he => ?_
  rcases stringOperand_bind_error he with rfl | ⟨data, he⟩
  · decide
  rcases stringOperand_bind_error he with rfl | ⟨key, he⟩
  · decide
  rcases facadeBlocks_error he with rfl | rfl | rfl | rfl <;> decide

/-- Every command ends with one of the values that the matrix T-R178 lists for it. -/
theorem exec_status_mem (i : Instr) (s : State) : ∃ t, exec i s = .next t ∧ t.status ∈ outcomes i := by
  cases i with
  | decKey =>
    refine finish_status_mem (by decide) fun e he => ?_
    rcases stringOperand_bind_error he with rfl | ⟨x, hx⟩
    · decide
    · rw [decodeKeyWords_error hx]
      decide
  | decBlk =>
    refine finish_status_mem (by decide) fun e he => ?_
    rcases stringOperand_bind_error he with rfl | ⟨x, hx⟩
    · decide
    · rw [decodeBlock_error hx]
      decide
  | encBlk => exact ⟨_, rfl, List.mem_singleton_self _⟩
  | encR => exact ⟨_, rfl, List.mem_singleton_self _⟩
  | decR => exact ⟨_, rfl, List.mem_singleton_self _⟩
  | encrypt => exact finish_facade_status_mem .encrypt s
  | decrypt => exact finish_facade_status_mem .decrypt s

/-- A state with the digit `f` in all of both buffers. The two lengths alone then decide how a command ends: a data
string is too wide for a block from 17 digits on, and a key string is 31 or 32 digits long. -/
def filledWithF (dlen klen : BitVec 8) : State :=
  { State.reset with
    dlen := dlen
    klen := klen
    din := Vector.replicate 64 0x66
    kin := Vector.replicate 64 0x66 }

theorem facade_outcomes_reached (d : Direction) :
    ∀ v ∈ outcomes d.command, ∃ s t, exec d.command s = .next t ∧ t.status = v := by
  have hsame : outcomes d.command = outcomes .encrypt := by cases d <;> rfl
  rw [hsame]
  simp only [outcomes, List.forall_mem_cons, exec_facade]
  exact ⟨⟨filledWithF 1 32, _, rfl, rfl⟩, ⟨filledWithF 65 32, _, rfl, rfl⟩, ⟨filledWithF 1 65, _, rfl, rfl⟩,
    ⟨filledWithF 0 32, _, rfl, rfl⟩, ⟨filledWithF 1 0, _, rfl, rfl⟩, ⟨filledWithF 1 1, _, rfl, rfl⟩,
    ⟨filledWithF 17 32, _, rfl, rfl⟩, List.forall_mem_nil _⟩

/-- Every value that the matrix T-R178 lists for a command is reached. -/
theorem exec_outcomes_reached (i : Instr) : ∀ v ∈ outcomes i, ∃ s t, exec i s = .next t ∧ t.status = v := by
  cases i with
  | decKey =>
    simp only [outcomes, List.forall_mem_cons]
    exact ⟨⟨filledWithF 0 32, _, rfl, rfl⟩, ⟨filledWithF 0 65, _, rfl, rfl⟩, ⟨filledWithF 0 1, _, rfl, rfl⟩,
      List.forall_mem_nil _⟩
  | decBlk =>
    simp only [outcomes, List.forall_mem_cons]
    exact ⟨⟨filledWithF 1 0, _, rfl, rfl⟩, ⟨filledWithF 65 0, _, rfl, rfl⟩, ⟨filledWithF 17 0, _, rfl, rfl⟩,
      List.forall_mem_nil _⟩
  | encBlk => exact List.forall_mem_singleton.2 ⟨State.reset, _, rfl, rfl⟩
  | encR => exact List.forall_mem_singleton.2 ⟨State.reset, _, rfl, rfl⟩
  | decR => exact List.forall_mem_singleton.2 ⟨State.reset, _, rfl, rfl⟩
  | encrypt => exact facade_outcomes_reached .encrypt
  | decrypt => exact facade_outcomes_reached .decrypt

theorem step_illegal {s : State} {rest : List Input} (hb : s.busy = true) (hn : s.coreNext rest)
    (hw : commandWordWf s.opLatch = false) :
    step s = .next (raise raiseCommand { s with inputs := rest }) := by
  obtain ⟨e, he⟩ := decode_error_iff_commandWordWf.2 hw
  exact (step_core hn).trans (coreStep_illegal hb he)

/-- Settles O22: `exec_status_mem` and `exec_outcomes_reached` per command, and `step_illegal`. -/
theorem commandsEndOnlyInTheirStatuses : Obligations.CommandsEndOnlyInTheirStatuses :=
  ⟨fun i => ⟨exec_status_mem i, exec_outcomes_reached i⟩, fun _ _ => step_illegal⟩

end Sys2Proof.Machine
end

section
/-! The facade on strings (rules R155, R156): the round trip, and what changes nothing. -/

namespace Sys2Proof.Machine

variable {s s' p p' : Str}

/-! ## The rounds undo each other -/

theorem decRound_encRound (k : Key) (x : RoundState) : decRound k (encRound k x) = x := by
  simp [decRound, encRound, add32, sub32]

theorem decryptBlock_encryptBlock (k : Key) (l r : Word) :
    decryptBlock k (encryptBlock k l r).1 (encryptBlock k l r).2 = (l, r) := by
  have hundo : decryptRounds k (encryptRounds k l r).l (encryptRounds k l r).r = ⟨l, r, 0⟩ := by
    rw [decryptRounds, ← encryptRounds_sum k l r]
    exact repeatRounds_undo (decRound_encRound k) Config.ROUNDS ⟨l, r, 0⟩
  simp only [decryptBlock, encryptBlock, hundo]

/-! ## A call on strings that decode -/

/-- A string that holds a digit after its hex mark is not blank. -/
theorem isBlank_of_allHex (hx : allHex (stripHexPrefix s) = true) (hne : stripHexPrefix s ≠ []) :
    isBlank s = false := by
  obtain ⟨q, -, he⟩ := stripHexPrefix_form s
  obtain ⟨c, hc⟩ := List.exists_mem_of_ne_nil _ hne
  have hws := isWhitespace_of_isHex c (List.all_eq_true.1 hx c hc)
  refine List.all_eq_false.2 ⟨c, ?_, by simp [hws]⟩
  rw [he]
  exact List.mem_append_right q hc

theorem isBlank_of_decodeKeyWords {k : Key} (h : decodeKeyWords s = .ok k) : isBlank s = false := by
  obtain ⟨hx, hlen, -⟩ := decodeKeyWords_eq_ok_iff.1 h
  exact isBlank_of_allHex hx (List.length_pos_iff.1 (by omega))

theorem isBlank_of_decodeBlock {b : Word × Word} (h : decodeBlock s = .ok b) : isBlank s = false := by
  obtain ⟨hx, hne, -⟩ := decodeBlock_eq_ok_iff.1 h
  exact isBlank_of_allHex hx hne

theorem facade_of_decode {d : Direction} {data key : Str} {k : Key} {b : Word × Word}
    (hk : decodeKeyWords key = .ok k) (hb : decodeBlock data = .ok b) :
    facade d data key = .ok (encodeBlock (d.apply k b.1 b.2).1 (d.apply k b.1 b.2).2) := by
  simp [facade, facadeBlocks, isBlank_of_decodeBlock hb, isBlank_of_decodeKeyWords hk, expand, hk, hb,
    Except.bind, Except.map]

/-- Settles O49: the ciphertext string decodes to the encrypted block, `decryptBlock` gives the plaintext's
block back, and its encoding is the canonical form. -/
theorem callsRoundTripOnStrings : Obligations.CallsRoundTripOnStrings := by
  intro p k w b hk hb
  have hcanon := encodeBlock_of_decodeBlock hb
  have hdec := facade_of_decode (d := .decrypt) hk
    (decodeBlock_encodeBlock (encryptBlock w b.1 b.2).1 (encryptBlock w b.1 b.2).2)
  simp only [Direction.apply, decryptBlock_encryptBlock] at hdec
  refine ⟨_, encodeBlock b.1 b.2, facade_of_decode (d := .encrypt) hk hb, hdec, decodeBlock_encodeBlock b.1 b.2,
    hcanon, ?_⟩
  rw [hcanon]

/-! ## What changes nothing -/

/-- The facade reads of each string whether it is blank and what it decodes to. -/
theorem facade_congr (d : Direction) {k k' : Str} (hp : isBlank p = isBlank p')
    (hk : isBlank k = isBlank k') (hpd : decodeBlock p = decodeBlock p')
    (hkd : decodeKeyWords k = decodeKeyWords k') : facade d p k = facade d p' k' := by
  simp only [facade, facadeBlocks, expand, hp, hk, hpd, hkd]

theorem decodeBlock_congr (h : stripHexPrefix s = stripHexPrefix s') : decodeBlock s = decodeBlock s' := by
  rw [decodeBlock, decodeBlock, h]

theorem decodeKeyWords_congr (h : stripHexPrefix s = stripHexPrefix s') :
    decodeKeyWords s = decodeKeyWords s' := by
  rw [decodeKeyWords, decodeKeyWords, h]

theorem stripHexPrefix_append (hp : p ∈ optionalPrefixes) (hs : stripHexPrefix s = s) :
    stripHexPrefix (p ++ s) = s := by
  simp only [optionalPrefixes, List.mem_cons, List.not_mem_nil, or_false] at hp
  rcases hp with rfl | rfl | rfl
  · exact hs
  · rfl
  · rfl

theorem isBlank_append_of_not_blank (p : Str) (hs : isBlank s = false) : isBlank (p ++ s) = isBlank s := by
  have hall : isBlank (p ++ s) = (isBlank p && isBlank s) := List.all_append
  rw [hall, hs, Bool.and_false]

/-! ### The case of the letters -/

theorem isWhitespace_lowerHex (c : Ch) : isWhitespace (lowerHex c) = isWhitespace c := by
  revert c; decide

/-- Lowering a hex letter makes no hex mark and destroys none. -/
theorem lowerHex_eq_mark_iff : ∀ c : Ch, (lowerHex c = 0x30 ↔ c = 0x30) ∧ (lowerHex c = 0x78 ↔ c = 0x78) ∧
    (lowerHex c = 0x58 ↔ c = 0x58) := by
  decide

theorem isBlank_lowerHex (s : Str) : isBlank (s.map lowerHex) = isBlank s := by
  rw [isBlank, isBlank, List.all_map]
  exact congrArg s.all (funext isWhitespace_lowerHex)

theorem stripHexPrefix_lowerHex (s : Str) :
    stripHexPrefix (s.map lowerHex) = (stripHexPrefix s).map lowerHex := by
  match s with
  | [] => rfl
  | [c] => rfl
  | c0 :: c1 :: rest =>
    obtain ⟨hzero, -, -⟩ := lowerHex_eq_mark_iff c0
    obtain ⟨-, hx, hX⟩ := lowerHex_eq_mark_iff c1
    simp only [List.map_cons, stripHexPrefix, hzero, hx, hX]
    split <;> rfl

theorem hexNatFrom_lowerHex (acc : Nat) (s : Str) : hexNatFrom acc (s.map lowerHex) = hexNatFrom acc s := by
  induction s generalizing acc with
  | nil => rfl
  | cons c cs ih => simp only [List.map_cons, hexNatFrom, hexVal_lowerHex, ih]

theorem hexNat_lowerHex (s : Str) : hexNat? (s.map lowerHex) = hexNat? s := hexNatFrom_lowerHex 0 s

theorem decodeBlock_lowerHex (s : Str) : decodeBlock (s.map lowerHex) = decodeBlock s := by
  simp only [decodeBlock, stripHexPrefix_lowerHex, List.length_map, hexNat_lowerHex]

theorem padToEvenLength_lowerHex (s : Str) :
    padToEvenLength (s.map lowerHex) = (padToEvenLength s).map lowerHex := by
  rw [padToEvenLength, padToEvenLength, List.length_map]
  split <;> rfl

theorem parseHex32_chunk_lowerHex (s : Str) (i : Nat) :
    parseHex32? (chunk (s.map lowerHex) i) = parseHex32? (chunk s i) := by
  simp only [chunk, parseHex32?, ← List.map_drop, ← List.map_take, hexNat_lowerHex]

theorem decodeKeyWords_lowerHex (s : Str) : decodeKeyWords (s.map lowerHex) = decodeKeyWords s := by
  simp only [decodeKeyWords, stripHexPrefix_lowerHex, padToEvenLength_lowerHex, List.length_map,
    parseHex32_chunk_lowerHex]

/-- Settles O50: neither a hex mark in front of the digits nor the case of the letters changes what
`facade_congr` says the facade reads. -/
theorem prefixAndLetterCaseAreNoOps : Obligations.PrefixAndLetterCaseAreNoOps := by
  intro d p k
  refine ⟨fun hp hk hpb hkb p0 hp0 k0 hk0 => ?_, ?_⟩
  · exact facade_congr d (isBlank_append_of_not_blank p0 hpb) (isBlank_append_of_not_blank k0 hkb)
      (decodeBlock_congr ((stripHexPrefix_append hp0 hp).trans hp.symm))
      (decodeKeyWords_congr ((stripHexPrefix_append hk0 hk).trans hk.symm))
  · exact facade_congr d (isBlank_lowerHex p) (isBlank_lowerHex k) (decodeBlock_lowerHex p)
      (decodeKeyWords_lowerHex k)

end Sys2Proof.Machine
end

section
/-! The word operators and the rounds (rules R125 to R130, R137, R157), the two 32-round functions as inverses
of each other (R135), and the commands that run them (R133, R134). -/

namespace Sys2Proof.Machine

/-! ## One function undoes the other -/

theorem encRound_decRound (k : Key) (x : RoundState) : encRound k (decRound k x) = x := by
  simp [decRound, encRound, add32, sub32]

theorem encryptBlock_decryptBlock (k : Key) (l r : Word) :
    encryptBlock k (decryptBlock k l r).1 (decryptBlock k l r).2 = (l, r) := by
  have hundo : encryptRounds k (decryptRounds k l r).l (decryptRounds k l r).r = ⟨l, r, Config.DSUM0⟩ := by
    rw [encryptRounds, ← decryptRounds_sum k l r]
    exact repeatRounds_undo (encRound_decRound k) Config.ROUNDS ⟨l, r, Config.DSUM0⟩
  simp only [encryptBlock, decryptBlock, hundo]

theorem leftInverse_decryptBlock_encryptBlock (k : Key) :
    Function.LeftInverse (fun b : Word × Word => decryptBlock k b.1 b.2) (fun b => encryptBlock k b.1 b.2) :=
  fun b => decryptBlock_encryptBlock k b.1 b.2

theorem leftInverse_encryptBlock_decryptBlock (k : Key) :
    Function.LeftInverse (fun b : Word × Word => encryptBlock k b.1 b.2) (fun b => decryptBlock k b.1 b.2) :=
  fun b => encryptBlock_decryptBlock k b.1 b.2

/-- Settles O46: a round of each direction undoes a round of the other, and the sum each function ends with is
the one the other starts from; two functions that undo each other are bijections. -/
theorem decryptInvertsEncrypt : Obligations.DecryptInvertsEncrypt := by
  intro k
  have hdec := leftInverse_decryptBlock_encryptBlock k
  have henc := leftInverse_encryptBlock_decryptBlock k
  exact ⟨decRound_encRound k, encRound_decRound k, decryptBlock_encryptBlock k, encryptBlock_decryptBlock k,
    ⟨hdec.injective, henc.surjective⟩, ⟨henc.injective, hdec.surjective⟩⟩

/-! ## The commands `ENCR` and `DECR` -/

theorem complete_setRounds (x : RoundState) (s : State) :
    complete (setRounds x s) = { s with l := x.l, r := x.r, sum := x.sum, rnd := 32, status := 0x02 } := rfl

theorem exec_encR_eq_next (s : State) :
    exec .encR s = .next { s with
      l := (encryptBlock s.k s.l s.r).1, r := (encryptBlock s.k s.l s.r).2,
      sum := 0xC6EF3720, rnd := 32, status := 0x02 } := by
  rw [exec_encR, finish_ok, complete_setRounds, encryptRounds_sum, Config.DSUM0, encryptBlock]

theorem exec_decR_eq_next (s : State) :
    exec .decR s = .next { s with
      l := (decryptBlock s.k s.l s.r).1, r := (decryptBlock s.k s.l s.r).2,
      sum := 0, rnd := 32, status := 0x02 } := by
  rw [exec_decR, finish_ok, complete_setRounds, decryptRounds_sum, decryptBlock]

/-- Settles O18: `exec_encR_eq_next`. -/
theorem encRRunsTheEncryptRounds : Obligations.EncRRunsTheEncryptRounds :=
  fun s => ⟨rfl, exec_encR_eq_next s⟩

/-- Settles O19: `exec_decR_eq_next`, and after `ENCR` the halves are those that `decryptBlock` makes of an
encrypted block. -/
theorem decRRunsTheDecryptRounds : Obligations.DecRRunsTheDecryptRounds := by
  intro s
  refine ⟨rfl, exec_decR_eq_next s, _, exec_encR_eq_next s, ?_⟩
  rw [exec_decR_eq_next, decryptBlock_encryptBlock]

/-! ## The sum in closed form -/

theorem ofNat_mul_delta_toNat (n : Nat) :
    (BitVec.ofNat 32 n * Config.DELTA).toNat = (0x9e3779b9 * n) % 2 ^ 32 := by
  rw [BitVec.toNat_mul, BitVec.toNat_ofNat, Nat.mod_mul_mod, Nat.mul_comm]
  rfl

/-- Stepping back from `DSUM0`, the sum of 32 steps, leaves the sum of the steps that remain. -/
theorem dsum0_sub_mul_delta {m n : Nat} (h : n + m = 32) :
    Config.DSUM0 - BitVec.ofNat 32 m * Config.DELTA = BitVec.ofNat 32 n * Config.DELTA := by
  have hdsum0 : Config.DSUM0 = BitVec.ofNat 32 (n + m) * Config.DELTA := by
    rw [h]
    decide
  rw [hdsum0, BitVec.ofNat_add, BitVec.add_mul, BitVec.add_sub_cancel]

/-- Settles O45: `encRound_sum` and `decRound_sum`; before decrypt round `j`, `j - 1` of the 32 steps are undone. -/
theorem sumSequenceClosedForm : Obligations.SumSequenceClosedForm := by
  intro k l r
  refine ⟨fun i _ _ => ?_, fun j hj1 hj32 => ?_⟩
  · have hsteps : (repeatRounds (encRound k) i ⟨l, r, 0⟩).sum = BitVec.ofNat 32 i * Config.DELTA :=
      (encRound_sum k i _).trans (BitVec.zero_add _)
    rw [hsteps, ofNat_mul_delta_toNat]
  · have hback : (repeatRounds (decRound k) (j - 1) ⟨l, r, Config.DSUM0⟩).sum =
        BitVec.ofNat 32 (33 - j) * Config.DELTA := by
      rw [decRound_sum, dsum0_sub_mul_delta (n := 33 - j) (by omega)]
    exact (congrArg BitVec.toNat hback).trans (ofNat_mul_delta_toNat (33 - j))

/-! ## Equivalent keys -/

/-- Complementing the top bit of one summand complements the top bit of the sum: the carry out is lost. -/
theorem add32_xor_top_bit (a c : Word) : add32 a (c ^^^ 0x80000000) = add32 a c ^^^ 0x80000000 := by
  calc a + (c ^^^ 0x80000000) = a + (c + 0x80000000) := congrArg (a + ·) (xor_top_bit c)
    _ = a + c + 0x80000000 := (BitVec.add_assoc a c _).symm
    _ = (a + c) ^^^ 0x80000000 := (xor_top_bit (a + c)).symm

/-- In `mix` the two complemented bits meet in the exclusive or and cancel. -/
theorem mix_xor_top_bits (v s ka kb : Word) :
    mix v s (ka ^^^ 0x80000000) (kb ^^^ 0x80000000) = mix v s ka kb := by
  have hcancel (x y z t : Word) : x ^^^ t ^^^ y ^^^ (z ^^^ t) = x ^^^ y ^^^ z := by
    calc x ^^^ t ^^^ y ^^^ (z ^^^ t) = x ^^^ y ^^^ z ^^^ (t ^^^ t) := by ac_rfl
      _ = x ^^^ y ^^^ z := by rw [BitVec.xor_self, BitVec.xor_zero]
  rw [mix, mix, add32_xor_top_bit, add32_xor_top_bit]
  exact hcancel _ _ _ _

/-- Keys with the same rounds give the same ciphertexts. -/
theorem encryptBlock_congr {k k' : Key} (h : ∀ x, encRound k x = encRound k' x) (l r : Word) :
    encryptBlock k l r = encryptBlock k' l r := by
  rw [encryptBlock, encryptRounds, funext h]
  rfl

/-- Settles O47: by `mix_xor_top_bits` a round is the same function under both keys. -/
theorem equivalentKeysGiveTheSameCiphertext : Obligations.EquivalentKeysGiveTheSameCiphertext := by
  intro k l r
  constructor
  · exact encryptBlock_congr (fun x => by simp only [encRound, mix_xor_top_bits]) l r
  · exact encryptBlock_congr (fun x => by simp only [encRound, mix_xor_top_bits]) l r

/-! ## The operators and the rounds as formulas -/

/-- Settles O43: each operator of R125 is an operation of `BitVec 32`. -/
theorem wordArithmeticIsModular : Obligations.WordArithmeticIsModular := by
  intro a b n _
  refine ⟨BitVec.toNat_add a b, ?_, ?_, ?_, fun i _ => ?_⟩
  · show (a - b).toNat = _
    rw [BitVec.toNat_sub]
    omega
  · show (a <<< n).toNat = _
    rw [BitVec.toNat_shiftLeft, Nat.shiftLeft_eq]
  · show (a >>> n).toNat = _
    rw [BitVec.toNat_ushiftRight, Nat.shiftRight_eq_div_pow]
  · exact BitVec.getLsbD_xor

/-- Settles O44: the rounds and `mix` are defined by these formulas. -/
theorem roundFormulas : Obligations.RoundFormulas := fun _ _ _ _ => ⟨rfl, rfl⟩

end Sys2Proof.Machine
end


section
/-! The facade commands (rules R152 to R154): when one completes and what it commits then, and the four primitive
commands that do the same one after the other. -/

namespace Sys2Proof.Machine

variable {d : Direction} {s t : State} {x : FacadeResult} {data key : Str}

/-! ## When a facade command completes -/

theorem except_bind_eq_ok_iff {α β : Type} {r : Except Raise α} {f : α → Except Raise β} {b : β} :
    r.bind f = .ok b ↔ ∃ a, r = .ok a ∧ f a = .ok b := by
  cases r with
  | ok a => simp [Except.bind]
  | error e => simp [Except.bind]

/-- The two blank tests of R151 need no mention: a string that decodes is not blank. -/
theorem facadeBlocks_eq_ok_iff : facadeBlocks d data key = .ok x ↔
    ∃ b, decodeKeyWords key = .ok x.k ∧ decodeBlock data = .ok b ∧ d.apply x.k b.1 b.2 = (x.l, x.r) := by
  constructor
  · intro h
    obtain ⟨-, -, b, hk, hb, happly⟩ := facadeBlocks_ok h
    exact ⟨b, hk, hb, happly.symm⟩
  · rintro ⟨b, hk, hb, happly⟩
    simp [facadeBlocks, isBlank_of_decodeBlock hb, isBlank_of_decodeKeyWords hk, expand, hk, hb, happly,
      Except.bind]

/-- The operands of a facade command are those of `DECKEY` and `DECBLK`. -/
theorem facadeOperands_eq_ok_iff : facadeOperands d s = .ok x ↔
    ∃ b, (keyString s).bind decodeKeyWords = .ok x.k ∧ (dataString s).bind decodeBlock = .ok b ∧
      d.apply x.k b.1 b.2 = (x.l, x.r) := by
  simp only [facadeOperands, except_bind_eq_ok_iff, facadeBlocks_eq_ok_iff]
  constructor
  · rintro ⟨data, hdata, key, hkey, b, hk, hb, happly⟩
    exact ⟨b, ⟨key, hkey, hk⟩, ⟨data, hdata, hb⟩, happly⟩
  · rintro ⟨b, ⟨key, hkey, hk⟩, ⟨data, hdata, hb⟩, happly⟩
    exact ⟨data, hdata, key, hkey, b, hk, hb, happly⟩

/-- A facade command that ends in `DONE` has committed the result that its operands give. -/
theorem facade_done_cases (hdone : t.status = statusDone) (h : exec d.command s = .next t) :
    ∃ x, facadeOperands d s = .ok x ∧ t = complete (setFacade d x s) := by
  rw [exec_facade] at h
  rcases finish_cases h with hok | ⟨e, -, rfl⟩
  · exact hok
  · exact absurd hdone (errorStatus_ne_done e)

/-! ## The sequence of primitive commands -/

/-- The primitive command that runs the rounds of a direction. -/
def Direction.roundsCommand : Direction → Instr
  | .encrypt => .encR
  | .decrypt => .decR

theorem exec_decKey_of_ok {k : Key} (h : (keyString s).bind decodeKeyWords = .ok k) :
    exec .decKey s = .next (complete (setKey k s)) := by
  rw [exec_decKey, h, finish_ok]

theorem exec_decBlk_of_ok {b : Word × Word} (h : (dataString s).bind decodeBlock = .ok b) :
    exec .decBlk s = .next (complete (setBlock b.1 b.2 s)) := by
  rw [exec_decBlk, h, finish_ok]

theorem exec_roundsCommand {l r : Word} (h : d.apply s.k s.l s.r = (l, r)) :
    exec d.roundsCommand s = .next (complete (setCounters d.finalSum Config.ROUNDS (setBlock l r s))) := by
  cases d with
  | encrypt =>
    have hblock : encryptBlock s.k s.l s.r = (l, r) := h
    rw [Direction.roundsCommand, exec_encR_eq_next, hblock]
    rfl
  | decrypt =>
    have hblock : decryptBlock s.k s.l s.r = (l, r) := h
    rw [Direction.roundsCommand, exec_decR_eq_next, hblock]
    rfl

/-- Each primitive commits its share of the facade's commit, and reads what the ones before it left: `DECBLK` the
data string that `DECKEY` does not touch, the rounds the new key and block, `ENCBLK` the new halves. -/
theorem facade_eq_primitive_sequence (hdone : t.status = statusDone) (h : exec d.command s = .next t) :
    ∃ s1 s2 s3, exec .decKey s = .next s1 ∧ exec .decBlk s1 = .next s2 ∧ exec d.roundsCommand s2 = .next s3 ∧
      exec .encBlk s3 = .next t := by
  obtain ⟨x, hx, rfl⟩ := facade_done_cases hdone h
  obtain ⟨b, hkey, hblock, happly⟩ := facadeOperands_eq_ok_iff.1 hx
  have hkeyStep := exec_decKey_of_ok hkey
  have hblockStep := exec_decBlk_of_ok (s := complete (setKey x.k s)) hblock
  have hroundsStep := exec_roundsCommand (s := complete (setBlock b.1 b.2 (complete (setKey x.k s)))) happly
  exact ⟨_, _, _, hkeyStep, hblockStep, hroundsStep, rfl⟩

/-- Settles O48: `facade_eq_primitive_sequence` in each direction. -/
theorem facadeCommandEqualsThePrimitiveSequence : Obligations.FacadeCommandEqualsThePrimitiveSequence :=
  fun _ _ hdone =>
    ⟨facade_eq_primitive_sequence (d := .encrypt) hdone, facade_eq_primitive_sequence (d := .decrypt) hdone⟩

/-! ## What a facade command commits -/

theorem facadeOperands_of_decode {b : Word × Word} (hdlen : s.dlen.toNat ≤ 64) (hklen : s.klen.toNat ≤ 64)
    (hk : decodeKeyWords (s.kin.toList.take s.klen.toNat) = .ok x.k)
    (hb : decodeBlock (s.din.toList.take s.dlen.toNat) = .ok b) (happly : d.apply x.k b.1 b.2 = (x.l, x.r)) :
    facadeOperands d s = .ok x := by
  rw [facadeOperands_eq d s hdlen hklen]
  exact facadeBlocks_eq_ok_iff.2 ⟨b, hk, hb, happly⟩

/-- The commit register by register; an encoding has at most 16 characters, so `OLEN` and `DOUT` hold all of it. -/
theorem exec_facade_commits (hx : facadeOperands d s = .ok x) :
    ∃ t, exec d.command s = .next t ∧
      t = { s with k := x.k, l := x.l, r := x.r, sum := d.finalSum, rnd := 32, olen := t.olen,
                   dout := t.dout, status := 0x02 } ∧
      t.olen.toNat = (encodeBlock x.l x.r).length ∧
      ∀ j : Fin 16, t.dout[j] =
        if h : j.val < (encodeBlock x.l x.r).length then (encodeBlock x.l x.r)[j.val] else 0 :=
  ⟨complete (setFacade d x s), by rw [exec_facade, hx, finish_ok], rfl, olen_toNat (encodeBlock_length x.l x.r).2,
    outputBuffer_get _⟩

/-- Settles O20: the operands decode to the result that `exec_facade_commits` writes. -/
theorem encryptCommitsTheWholeCall : Obligations.EncryptCommitsTheWholeCall := by
  rintro s w l0 r0 l1 r1 o hdlen hklen hkey hblock happly rfl
  exact exec_facade_commits (d := .encrypt) (x := ⟨w, l1, r1⟩)
    (facadeOperands_of_decode hdlen hklen hkey hblock happly)

/-- Settles O21: the operands decode to the result that `exec_facade_commits` writes. -/
theorem decryptCommitsTheWholeCall : Obligations.DecryptCommitsTheWholeCall := by
  rintro s w l0 r0 l1 r1 o hdlen hklen hkey hblock happly rfl
  exact exec_facade_commits (d := .decrypt) (x := ⟨w, l1, r1⟩)
    (facadeOperands_of_decode hdlen hklen hkey hblock happly)

end Sys2Proof.Machine
end

section
/-! Errors and the end of a command (rules R165, R166, R168): what an error changes, which one of several is
reported, and how long `STATUS` keeps it. -/

namespace Sys2Proof.Machine

variable {d : Direction} {s : State} {data key : Str}

/-! ## One error, and nothing else -/

/-- Settles O23, by how a command ends: `DONE` is excluded, and an error entry changes `STATUS` alone. -/
theorem errorEntryChangesOnlyStatus : Obligations.ErrorEntryChangesOnlyStatus := by
  intro i s t h hne
  rcases exec_ends_reported h with hdone | ⟨e, rfl, hreported⟩
  · exact absurd hdone hne
  · exact ⟨e, rfl, stateField_errorStatus e, hreported⟩

/-! ## The order of the errors -/

theorem decodeKeyWords_eq_error (h : ∀ w, decodeKeyWords key ≠ .ok w) :
    decodeKeyWords key = .error ⟨.malformedInput, .key⟩ :=
  (decodeKeyWords_cases key).resolve_left (not_exists.2 h)

theorem decodeBlock_eq_error (h : ∀ b, decodeBlock data ≠ .ok b) :
    decodeBlock data = .error ⟨.malformedInput, .data⟩ :=
  (decodeBlock_cases data).resolve_left (not_exists.2 h)

/-- The four levels of R151: a blank data string, a blank key string, a malformed key string, a malformed data
string; each is reached only when the ones before it pass. -/
theorem facadeBlocks_error_order (d : Direction) (data key : Str) :
    (isBlank data = true → facadeBlocks d data key = .error ⟨.invalidArgument, .data⟩) ∧
    (isBlank data = false →
      (isBlank key = true → facadeBlocks d data key = .error ⟨.invalidArgument, .key⟩) ∧
      (isBlank key = false →
        ((∀ w, decodeKeyWords key ≠ .ok w) → facadeBlocks d data key = .error ⟨.malformedInput, .key⟩) ∧
        ((∃ w, decodeKeyWords key = .ok w) → (∀ b, decodeBlock data ≠ .ok b) →
          facadeBlocks d data key = .error ⟨.malformedInput, .data⟩))) := by
  refine ⟨fun hdata => ?_, fun hdata => ⟨fun hkey => ?_, fun hkey => ⟨fun hw => ?_, ?_⟩⟩⟩
  · simp [facadeBlocks, hdata]
  · simp [facadeBlocks, hdata, hkey]
  · simp [facadeBlocks, hdata, hkey, expand, decodeKeyWords_eq_error hw, Except.bind]
  · rintro ⟨w, hw⟩ hb
    simp [facadeBlocks, hdata, hkey, expand, hw, decodeBlock_eq_error hb, Except.bind]

theorem facadeOperands_data_too_long (h : 64 < s.dlen.toNat) :
    facadeOperands d s = .error ⟨.protocolError, .data⟩ := by
  rw [facadeOperands, dataString, stringOperand_error h]
  rfl

theorem facadeOperands_key_too_long (hdlen : s.dlen.toNat ≤ 64) (h : 64 < s.klen.toNat) :
    facadeOperands d s = .error ⟨.protocolError, .key⟩ := by
  rw [facadeOperands, dataString, stringOperand_ok hdlen, keyString, stringOperand_error h]
  rfl

theorem exec_facade_error {e : Raise} (h : facadeOperands d s = .error e) :
    exec d.command s = .next (raise e s) := by
  rw [exec_facade, h, finish_error]

theorem exec_facade_error_of_blocks {e : Raise} (hdlen : s.dlen.toNat ≤ 64) (hklen : s.klen.toNat ≤ 64)
    (h : facadeBlocks d (s.din.toList.take s.dlen.toNat) (s.kin.toList.take s.klen.toNat) = .error e) :
    exec d.command s = .next (raise e s) :=
  exec_facade_error ((facadeOperands_eq d s hdlen hklen).trans h)

/-- Settles O24: the illegal word, the two length tests of a facade command and `facadeBlocks_error_order` after
them, the same tests in `DECKEY` and `DECBLK`, and the three commands without an error. -/
theorem errorsAreReportedInFixedOrder : Obligations.ErrorsAreReportedInFixedOrder := by
  intro s data key
  obtain ⟨-, hkeyLong, hkeyFits⟩ := decKeyWritesTheDecodedKey s
  obtain ⟨-, hdataLong, hdataFits⟩ := decBlkWritesTheDecodedHalves s
  refine ⟨fun _ => step_illegal, fun i hi => ?facade, hkeyLong, fun hklen => (hkeyFits hklen).2, hdataLong,
    fun hdlen => (hdataFits hdlen).2, ?noError⟩
  case facade =>
    obtain ⟨d, rfl⟩ := eq_command hi
    obtain ⟨hdata, horder⟩ := facadeBlocks_error_order d data key
    refine ⟨fun h => exec_facade_error (facadeOperands_data_too_long h), fun hdlen =>
      ⟨fun h => exec_facade_error (facadeOperands_key_too_long hdlen h), fun hklen => ?_⟩⟩
    have hraise {e : Raise} := exec_facade_error_of_blocks (d := d) (e := e) hdlen hklen
    refine ⟨fun h => hraise (hdata h), fun hdataText => ?_⟩
    obtain ⟨hkey, hformat⟩ := horder hdataText
    refine ⟨fun h => hraise (hkey h), fun hkeyText => ?_⟩
    obtain ⟨hkeyFormat, hdataFormat⟩ := hformat hkeyText
    exact ⟨fun h => hraise (hkeyFormat h), fun hw hb => hraise (hdataFormat hw hb)⟩
  case noError =>
    rintro i (rfl | rfl | rfl) <;> exact ⟨_, rfl, rfl⟩

/-! ## How long `STATUS` stays -/

theorem not_busy_of_stateField (h : stateField s.status = 2 ∨ stateField s.status = 3) : s.busy = false := by
  rcases h with h | h <;> simp [State.busy, h]

/-- `serve_status`, with the one access that starts a command. -/
theorem serve_status_or_cmd (x : HostAccess) (s : State) :
    (serve x s).status = s.status ∨ ((serve x s).status = statusBusy ∧ ∃ w, x = .write 0x00 w) := by
  cases x with
  | read a => exact .inl rfl
  | write a v =>
    rw [serve_write]
    rcases memWrite_cases a v s with h | ⟨-, rfl, h⟩ | ⟨-, -, hstatus, -⟩
    · exact .inl (by rw [h])
    · exact .inr ⟨by rw [h]; rfl, v, rfl⟩
    · exact .inl hstatus

/-- Settles O25: `DONE` and `ERROR` are not `BUSY`, so the CORE's step does nothing, and the step's event is one that
keeps `STATUS`, a reset, or the write to `CMD`, which is accepted and run. -/
theorem statusIsStickyUntilTheNextCommand : Obligations.StatusIsStickyUntilTheNextCommand := by
  intro s hs
  have hb := not_busy_of_stateField hs
  refine ⟨fun t h hnoReset => ?sticky, fun w rest => step_write_cmd hb,
    fun i rest => runSteps_command hb (decode_encode i)⟩
  rcases step_cases h with ⟨rest, -, hc⟩ | ⟨rest, -, rfl⟩ | ⟨x, rest, hi, rfl⟩ | ⟨rest, hi, -⟩
  · rw [coreStep_idle (s := { s with inputs := rest }) hb] at hc
    cases hc
    exact .inl rfl
  · exact .inl rfl
  · rcases serve_status_or_cmd x { s with inputs := rest } with hkeep | ⟨hbusy, w, rfl⟩
    · exact .inl hkeep
    · exact .inr ⟨hbusy, w, rest, hi⟩
  · exact absurd hi (hnoReset rest)

end Sys2Proof.Machine
end

section
/-! A command in flight ends (rule R188), and the model's entry point (log entry 5). -/

namespace Sys2Proof.Machine

variable {s t : State}

/-! ## How a command in flight ends -/

/-- In `t` the command is over: `DONE`, `ERROR`, or `IDLE` after a reset that is among `inputs`. -/
def CommandOver (inputs : List Input) (t : State) : Prop :=
  stateField t.status = 2 ∨ stateField t.status = 3 ∨ (.reset ∈ inputs ∧ t.status = 0x00)

theorem CommandOver.cons {inputs : List Input} (x : Input) (h : CommandOver inputs t) :
    CommandOver (x :: inputs) t := by
  rcases h with hdone | herror | ⟨hreset, hidle⟩
  · exact .inl hdone
  · exact .inr (.inl herror)
  · exact .inr (.inr ⟨List.mem_cons_of_mem x hreset, hidle⟩)

theorem commandOver_raise (inputs : List Input) (e : Raise) (s : State) : CommandOver inputs (raise e s) :=
  .inr (.inl (stateField_errorStatus e))

/-- The CORE's turn ends the command, with the meaning of a legal word or the error of an illegal one. -/
theorem commandOver_of_coreStep (inputs : List Input) (hb : s.busy = true) (h : coreStep s = .next t) :
    CommandOver inputs t := by
  rcases coreStep_cases h with ⟨hidle, -⟩ | ⟨i, -, -, hx⟩ | ⟨-, -, -, rfl⟩
  · exact absurd hb (by simp [hidle])
  · rcases exec_ends hx with hdone | ⟨e, rfl⟩
    · exact .inl (congrArg stateField hdone)
    · exact commandOver_raise inputs e s
  · exact commandOver_raise inputs raiseCommand s

/-- A step while `BUSY` ends the command, or uses up one listed input and leaves the command in flight. -/
theorem step_busy_cases (hb : s.busy = true) (h : step s = .next t) :
    CommandOver s.inputs t ∨ (t.busy = true ∧ ∃ x, s.inputs = x :: t.inputs) := by
  rcases step_cases h with ⟨rest, -, hturn⟩ | ⟨rest, hi, rfl⟩ | ⟨a, rest, hi, rfl⟩ | ⟨rest, hi, rfl⟩
  · exact .inl (commandOver_of_coreStep s.inputs (s := { s with inputs := rest }) hb hturn)
  · exact .inr ⟨hb, .coreProgress, hi⟩
  · obtain ⟨hbusy, hinputs⟩ := serve_busy (s := { s with inputs := rest }) a hb
    exact .inr ⟨hbusy, .access a, by rw [hinputs, hi]⟩
  · exact .inl (.inr (.inr ⟨by simp [hi], rfl⟩))

/-- By recursion on the listed inputs, of which every step that does not end the command uses up one. -/
theorem runSteps_commandOver {s : State} (hb : s.busy = true) :
    ∃ n t, n ≤ s.inputs.length + 1 ∧ runSteps n s = .next t ∧ CommandOver s.inputs t := by
  obtain ⟨t, h⟩ := everyStepAnswersNext s
  rcases step_busy_cases hb h with hover | ⟨hbusy, x, hi⟩
  · exact ⟨1, t, by omega, (runSteps_one s).trans h, hover⟩
  · have hlen : s.inputs.length = t.inputs.length + 1 := by rw [hi, List.length_cons]
    obtain ⟨n, u, hn, hrun, hover⟩ := runSteps_commandOver hbusy
    exact ⟨n + 1, u, by omega, (runSteps_succ h).trans hrun, hi ▸ hover.cons x⟩
termination_by s.inputs.length

/-- Settles O10, by `runSteps_commandOver`: at most one step for each listed input, and the CORE's turn. -/
theorem commandInFlightEnds : Obligations.CommandInFlightEnds := by
  intro s hb
  exact runSteps_commandOver hb

/-! ## The model's entry point -/

theorem withFetchWord_toNat (s : State) (w : Word) : s.withFetchWord 32 w.toNat = loadCommand w s := by
  rw [State.withFetchWord, Nat.mod_eq_of_lt w.isLt, BitVec.ofNat_toNat, BitVec.setWidth_eq]

/-- Settles O8: the loaded state is `BUSY` with the CORE's turn listed first, so `step_turn_ok` applies. -/
theorem fetchWordIsRunByTheNextStep : Obligations.FetchWordIsRunByTheNextStep := by
  intro s w i hd
  rw [withFetchWord_toNat]
  exact step_turn_ok (acceptCommand_busy w s) (.inl (loadCommand_inputs s w)) hd

end Sys2Proof.Machine
end
